-- ==== Sys2Proof/Word.lean ====
section
/-! DEFINITION. The word types of the machine (R7, R8 of spec/00_scope.md): every value is unsigned. -/

namespace Sys2Proof

/-- A general register, a timer or a cell of main memory: 8 bits (R21, R29, R35). -/
abbrev Byte := BitVec 8

/-- `pc`, `index`, a stack slot or an instruction word: 16 bits (R7 `ADDR_W`, R70). -/
abbrev Word := BitVec 16

end Sys2Proof
end

