-- ==== Sys2Proof/Syntax.lean ====
section
/-! DEFINITION. The instruction set, one constructor per row of spec/opcode_table.json (R76 of spec/30_encoding.md):
34 instructions and the no-op of the unmapped words. -/

namespace Sys2Proof

/-- A 4-bit field used as a number: `x`, `y` and `n` of R9, R71.  As `x` or `y` it is a register number, 15 being VF. -/
abbrev Nibble := Fin 16

/-- A register number (R21). -/
abbrev Reg := Fin 16

/-- The number of VF, the flag register (R22). -/
abbrev vf : Reg := 15

/-- The instructions.  A constructor keeps every bit of its word: the bits the handler ignores (R78) are the last
argument (`ign`) of the handlers that have alias words, the ignored `y` of the shifts, and the raw word of the no-op.
DESIGN CHOICE (log 8), safe. -/
inductive Instr where
  /-- 00E0 `CLS` (R191); `ign` is op[11:4]. -/
  | cls (ign : Byte)
  /-- 00EE `RET` (R121); `ign` is op[11:4]. -/
  | ret (ign : Byte)
  /-- 1nnn `JP nnn` (R122). -/
  | jp (nnn : BitVec 12)
  /-- 2nnn `CALL nnn` (R123). -/
  | call (nnn : BitVec 12)
  /-- 3xkk `SE Vx, kk` (R124). -/
  | seByte (x : Reg) (kk : Byte)
  /-- 4xkk `SNE Vx, kk` (R125). -/
  | sneByte (x : Reg) (kk : Byte)
  /-- 5xy0 `SE Vx, Vy` (R126); `ign` is op[3:0]. -/
  | seReg (x y : Reg) (ign : Nibble)
  /-- 6xkk `LD Vx, kk` (R141). -/
  | ldByte (x : Reg) (kk : Byte)
  /-- 7xkk `ADD Vx, kk` (R142). -/
  | addByte (x : Reg) (kk : Byte)
  /-- 8xy0 `LD Vx, Vy` (R143). -/
  | ldReg (x y : Reg)
  /-- 8xy1 `OR Vx, Vy` (R144). -/
  | orReg (x y : Reg)
  /-- 8xy2 `AND Vx, Vy` (R145). -/
  | andReg (x y : Reg)
  /-- 8xy3 `XOR Vx, Vy` (R146). -/
  | xorReg (x y : Reg)
  /-- 8xy4 `ADD Vx, Vy` (R147). -/
  | addReg (x y : Reg)
  /-- 8xy5 `SUB Vx, Vy` (R148). -/
  | subReg (x y : Reg)
  /-- 8xy6 `SHR Vx` (R149); `y` is encoded and ignored. -/
  | shr (x y : Reg)
  /-- 8xy7 `SUBN Vx, Vy` (R150). -/
  | subnReg (x y : Reg)
  /-- 8xyE `SHL Vx` (R151); `y` is encoded and ignored. -/
  | shl (x y : Reg)
  /-- 9xy0 `SNE Vx, Vy` (R127); `ign` is op[3:0]. -/
  | sneReg (x y : Reg) (ign : Nibble)
  /-- Annn `LD I, nnn` (R171). -/
  | ldI (nnn : BitVec 12)
  /-- Bnnn `JP V0, nnn` (R128). -/
  | jpV0 (nnn : BitVec 12)
  /-- Cxkk `RND Vx, kk` (R152). -/
  | rnd (x : Reg) (kk : Byte)
  /-- Dxyn `DRW Vx, Vy, n` (R192). -/
  | drw (x y : Reg) (n : Nibble)
  /-- Ex9E `SKP Vx` (R211); `ign` is op[7:4]. -/
  | skp (x : Reg) (ign : Nibble)
  /-- ExA1 `SKNP Vx` (R212); `ign` is op[7:4]. -/
  | sknp (x : Reg) (ign : Nibble)
  /-- Fx07 `LD Vx, DT` (R213). -/
  | ldVxDt (x : Reg)
  /-- Fx0A `LD Vx, K` (R214). -/
  | ldVxK (x : Reg)
  /-- Fx15 `LD DT, Vx` (R215). -/
  | ldDtVx (x : Reg)
  /-- Fx18 `LD ST, Vx` (R216). -/
  | ldStVx (x : Reg)
  /-- Fx1E `ADD I, Vx` (R172). -/
  | addI (x : Reg)
  /-- Fx29 `LD F, Vx` (R173). -/
  | ldF (x : Reg)
  /-- Fx33 `LD B, Vx` (R174). -/
  | ldB (x : Reg)
  /-- Fx55 `LD [I], Vx` (R175). -/
  | storeRegs (x : Reg)
  /-- Fx65 `LD Vx, [I]` (R176). -/
  | loadRegs (x : Reg)
  /-- Every unmapped word: the no-op handler (R106, R79); `w` is the raw word. -/
  | nop (w : Word)
  deriving DecidableEq, Repr

end Sys2Proof
end

