-- ==== Sys2Proof/WellFormed.lean ====
section
/-! DEFINITION. Which terms of `Instr` are instructions of the machine.  Register numbers, immediates and ignored
fields are legal at every value (R72 of spec/30_encoding.md), and their types bound them; the one check is that a
no-op carries an unmapped word (R79). -/

namespace Sys2Proof

/-- R79: the words that reach the no-op handler, items (a) to (d), read off the four second-level tables. -/
def unmapped (w : Word) : Bool :=
  let top := w.toNat / 4096
  let low := w.toNat % 16
  let lowByte := w.toNat % 256
  (top == 0x0 && !([0x0, 0xE] : List Nat).contains low) ||
  (top == 0x8 && ([0x8, 0x9, 0xA, 0xB, 0xC, 0xD, 0xF] : List Nat).contains low) ||
  (top == 0xE && !([0x1, 0xE] : List Nat).contains low) ||
  (top == 0xF && !([0x07, 0x0A, 0x15, 0x18, 0x1E, 0x29, 0x33, 0x55, 0x65] : List Nat).contains lowByte)

/-- The instruction is one the decoder can give: a no-op carries an unmapped word; everything else is well formed. -/
def Instr.wellFormed : Instr → Bool
  | .nop w => unmapped w
  | .cls _ | .ret _ | .jp _ | .call _ | .seByte _ _ | .sneByte _ _ | .seReg _ _ _ | .ldByte _ _ | .addByte _ _
  | .ldReg _ _ | .orReg _ _ | .andReg _ _ | .xorReg _ _ | .addReg _ _ | .subReg _ _ | .shr _ _ | .subnReg _ _
  | .shl _ _ | .sneReg _ _ _ | .ldI _ | .jpV0 _ | .rnd _ _ | .drw _ _ _ | .skp _ _ | .sknp _ _ | .ldVxDt _
  | .ldVxK _ | .ldDtVx _ | .ldStVx _ | .addI _ | .ldF _ | .ldB _ | .storeRegs _ | .loadRegs _ => true

/-- R78, R82: the same instruction written as an assembler writes it, every ignored field at the digit its pattern
shows.  The shifts have no alias words: every `y` of theirs is canonical. -/
def Instr.canonical : Instr → Instr
  | .cls _ => .cls 0x0E
  | .ret _ => .ret 0x0E
  | .seReg x y _ => .seReg x y 0
  | .sneReg x y _ => .sneReg x y 0
  | .skp x _ => .skp x 0x9
  | .sknp x _ => .sknp x 0xA
  | .jp nnn => .jp nnn
  | .call nnn => .call nnn
  | .seByte x kk => .seByte x kk
  | .sneByte x kk => .sneByte x kk
  | .ldByte x kk => .ldByte x kk
  | .addByte x kk => .addByte x kk
  | .ldReg x y => .ldReg x y
  | .orReg x y => .orReg x y
  | .andReg x y => .andReg x y
  | .xorReg x y => .xorReg x y
  | .addReg x y => .addReg x y
  | .subReg x y => .subReg x y
  | .shr x y => .shr x y
  | .subnReg x y => .subnReg x y
  | .shl x y => .shl x y
  | .ldI nnn => .ldI nnn
  | .jpV0 nnn => .jpV0 nnn
  | .rnd x kk => .rnd x kk
  | .drw x y n => .drw x y n
  | .ldVxDt x => .ldVxDt x
  | .ldVxK x => .ldVxK x
  | .ldDtVx x => .ldDtVx x
  | .ldStVx x => .ldStVx x
  | .addI x => .addI x
  | .ldF x => .ldF x
  | .ldB x => .ldB x
  | .storeRegs x => .storeRegs x
  | .loadRegs x => .loadRegs x
  | .nop w => .nop w

end Sys2Proof
end

