-- ==== Sys2Proof/Decode.lean ====
section
/-! DEFINITION. Decoding and encoding (R70 to R79 of spec/30_encoding.md).  The decoder is the two-level dispatch of
R73 and R74; `opcodeRows` is the mask and match table of R76; the encoder writes the words of the same table. -/

namespace Sys2Proof

/-! ### Fields (R71) -/

/-- The top nibble op[15:12]. -/
def topNibble (w : Word) : Nibble := (w.extractLsb' 12 4).toFin

/-- Field `x` = op[11:8]. -/
def fieldX (w : Word) : Nibble := (w.extractLsb' 8 4).toFin

/-- Field `y` = op[7:4]. -/
def fieldY (w : Word) : Nibble := (w.extractLsb' 4 4).toFin

/-- Field `n` = op[3:0], also the second-level key of the nibbles 0, 8 and E. -/
def fieldN (w : Word) : Nibble := (w.extractLsb' 0 4).toFin

/-- Field `kk` = op[7:0], also the second-level key of the nibble F. -/
def fieldKK (w : Word) : Byte := w.extractLsb' 0 8

/-- Field `nnn` = op[11:0]. -/
def fieldNNN (w : Word) : BitVec 12 := w.extractLsb' 0 12

/-- op[11:4], the bits 00E0 and 00EE ignore. -/
def fieldIgn (w : Word) : Byte := w.extractLsb' 4 8

/-! ### Dispatch (R73, R74) -/

/-- The second level of the nibble 0, key op[3:0]. -/
def decode0 (w : Word) : Instr :=
  match (fieldN w).val with
  | 0x0 => .cls (fieldIgn w)
  | 0xE => .ret (fieldIgn w)
  | _ => .nop w

/-- The second level of the nibble 8, key op[3:0]. -/
def decode8 (w : Word) : Instr :=
  match (fieldN w).val with
  | 0x0 => .ldReg (fieldX w) (fieldY w)
  | 0x1 => .orReg (fieldX w) (fieldY w)
  | 0x2 => .andReg (fieldX w) (fieldY w)
  | 0x3 => .xorReg (fieldX w) (fieldY w)
  | 0x4 => .addReg (fieldX w) (fieldY w)
  | 0x5 => .subReg (fieldX w) (fieldY w)
  | 0x6 => .shr (fieldX w) (fieldY w)
  | 0x7 => .subnReg (fieldX w) (fieldY w)
  | 0xE => .shl (fieldX w) (fieldY w)
  | _ => .nop w

/-- The second level of the nibble E, key op[3:0]. -/
def decodeE (w : Word) : Instr :=
  match (fieldN w).val with
  | 0x1 => .sknp (fieldX w) (fieldY w)
  | 0xE => .skp (fieldX w) (fieldY w)
  | _ => .nop w

/-- The second level of the nibble F, key op[7:0]. -/
def decodeF (w : Word) : Instr :=
  match (fieldKK w).toNat with
  | 0x07 => .ldVxDt (fieldX w)
  | 0x0A => .ldVxK (fieldX w)
  | 0x15 => .ldDtVx (fieldX w)
  | 0x18 => .ldStVx (fieldX w)
  | 0x1E => .addI (fieldX w)
  | 0x29 => .ldF (fieldX w)
  | 0x33 => .ldB (fieldX w)
  | 0x55 => .storeRegs (fieldX w)
  | 0x65 => .loadRegs (fieldX w)
  | _ => .nop w

/-- R77: decoding as a total function of the word alone, by the top-level table of R73.  The last arm is the nibble F. -/
def decode (w : Word) : Instr :=
  match (topNibble w).val with
  | 0x0 => decode0 w
  | 0x1 => .jp (fieldNNN w)
  | 0x2 => .call (fieldNNN w)
  | 0x3 => .seByte (fieldX w) (fieldKK w)
  | 0x4 => .sneByte (fieldX w) (fieldKK w)
  | 0x5 => .seReg (fieldX w) (fieldY w) (fieldN w)
  | 0x6 => .ldByte (fieldX w) (fieldKK w)
  | 0x7 => .addByte (fieldX w) (fieldKK w)
  | 0x8 => decode8 w
  | 0x9 => .sneReg (fieldX w) (fieldY w) (fieldN w)
  | 0xA => .ldI (fieldNNN w)
  | 0xB => .jpV0 (fieldNNN w)
  | 0xC => .rnd (fieldX w) (fieldKK w)
  | 0xD => .drw (fieldX w) (fieldY w) (fieldN w)
  | 0xE => decodeE w
  | _ => decodeF w

/-! ### Bytes (R50, R70) -/

/-- The word of two consecutive bytes, the one at the lower address high (R50). -/
def wordOfBytes (hi lo : Byte) : Word := hi ++ lo

/-- The byte of a word stored at the lower address (R70). -/
def highByte (w : Word) : Byte := w.extractLsb' 8 8

/-- The byte of a word stored at the higher address (R70). -/
def lowByte (w : Word) : Byte := w.extractLsb' 0 8

/-- Why bytes are not an instruction.  No word is illegal (R80), so the one reason is a missing byte. -/
inductive DecodeError where
  /-- Fewer than two bytes: no whole instruction word (R70). -/
  | truncated
  deriving DecidableEq, Repr

/-- Decode the first instruction of a byte sequence; the answer holds the bytes after it. -/
def decodeBytes : List Byte → Except DecodeError (Instr × List Byte)
  | hi :: lo :: rest => .ok (decode (wordOfBytes hi lo), rest)
  | [_] => .error .truncated
  | [] => .error .truncated

/-! ### The opcode table (R76) -/

/-- One row of the opcode map of R76: the words with `w AND mask = pattern` are the instruction `build w`. -/
structure OpcodeRow where
  mnemonic : String
  mask : Word
  pattern : Word
  build : Word → Instr

/-- Whether a word is one of a row's. -/
def OpcodeRow.hits (r : OpcodeRow) (w : Word) : Bool := w &&& r.mask == r.pattern

/-- Rows 1 to 9 of R76. -/
def rowsFlow : List OpcodeRow := [
  ⟨"CLS", 0xF00F, 0x0000, fun w => .cls (fieldIgn w)⟩,
  ⟨"RET", 0xF00F, 0x000E, fun w => .ret (fieldIgn w)⟩,
  ⟨"JP_nnn", 0xF000, 0x1000, fun w => .jp (fieldNNN w)⟩,
  ⟨"CALL_nnn", 0xF000, 0x2000, fun w => .call (fieldNNN w)⟩,
  ⟨"SE_Vx__kk", 0xF000, 0x3000, fun w => .seByte (fieldX w) (fieldKK w)⟩,
  ⟨"SNE_Vx__kk", 0xF000, 0x4000, fun w => .sneByte (fieldX w) (fieldKK w)⟩,
  ⟨"SE_Vx__Vy", 0xF000, 0x5000, fun w => .seReg (fieldX w) (fieldY w) (fieldN w)⟩,
  ⟨"LD_Vx__kk", 0xF000, 0x6000, fun w => .ldByte (fieldX w) (fieldKK w)⟩,
  ⟨"ADD_Vx__kk", 0xF000, 0x7000, fun w => .addByte (fieldX w) (fieldKK w)⟩]

/-- Rows 10 to 18 of R76. -/
def rowsAlu : List OpcodeRow := [
  ⟨"LD_Vx__Vy", 0xF00F, 0x8000, fun w => .ldReg (fieldX w) (fieldY w)⟩,
  ⟨"OR_Vx__Vy", 0xF00F, 0x8001, fun w => .orReg (fieldX w) (fieldY w)⟩,
  ⟨"AND_Vx__Vy", 0xF00F, 0x8002, fun w => .andReg (fieldX w) (fieldY w)⟩,
  ⟨"XOR_Vx__Vy", 0xF00F, 0x8003, fun w => .xorReg (fieldX w) (fieldY w)⟩,
  ⟨"ADD_Vx__Vy", 0xF00F, 0x8004, fun w => .addReg (fieldX w) (fieldY w)⟩,
  ⟨"SUB_Vx__Vy", 0xF00F, 0x8005, fun w => .subReg (fieldX w) (fieldY w)⟩,
  ⟨"SHR_Vx", 0xF00F, 0x8006, fun w => .shr (fieldX w) (fieldY w)⟩,
  ⟨"SUBN_Vx__Vy", 0xF00F, 0x8007, fun w => .subnReg (fieldX w) (fieldY w)⟩,
  ⟨"SHL_Vx", 0xF00F, 0x800E, fun w => .shl (fieldX w) (fieldY w)⟩]

/-- Rows 19 to 25 of R76. -/
def rowsMiddle : List OpcodeRow := [
  ⟨"SNE_Vx__Vy", 0xF000, 0x9000, fun w => .sneReg (fieldX w) (fieldY w) (fieldN w)⟩,
  ⟨"LD_I__nnn", 0xF000, 0xA000, fun w => .ldI (fieldNNN w)⟩,
  ⟨"JP_V0__nnn", 0xF000, 0xB000, fun w => .jpV0 (fieldNNN w)⟩,
  ⟨"RND_Vx__kk", 0xF000, 0xC000, fun w => .rnd (fieldX w) (fieldKK w)⟩,
  ⟨"DRW_Vx__Vy__n", 0xF000, 0xD000, fun w => .drw (fieldX w) (fieldY w) (fieldN w)⟩,
  ⟨"SKP_Vx", 0xF00F, 0xE00E, fun w => .skp (fieldX w) (fieldY w)⟩,
  ⟨"SKNP_Vx", 0xF00F, 0xE001, fun w => .sknp (fieldX w) (fieldY w)⟩]

/-- Rows 26 to 34 of R76. -/
def rowsF : List OpcodeRow := [
  ⟨"LD_Vx__DT", 0xF0FF, 0xF007, fun w => .ldVxDt (fieldX w)⟩,
  ⟨"LD_Vx__K", 0xF0FF, 0xF00A, fun w => .ldVxK (fieldX w)⟩,
  ⟨"LD_DT__Vx", 0xF0FF, 0xF015, fun w => .ldDtVx (fieldX w)⟩,
  ⟨"LD_ST__Vx", 0xF0FF, 0xF018, fun w => .ldStVx (fieldX w)⟩,
  ⟨"ADD_I__Vx", 0xF0FF, 0xF01E, fun w => .addI (fieldX w)⟩,
  ⟨"LD_F__Vx", 0xF0FF, 0xF029, fun w => .ldF (fieldX w)⟩,
  ⟨"LD_B__Vx", 0xF0FF, 0xF033, fun w => .ldB (fieldX w)⟩,
  ⟨"LD__I___Vx", 0xF0FF, 0xF055, fun w => .storeRegs (fieldX w)⟩,
  ⟨"LD_Vx___I", 0xF0FF, 0xF065, fun w => .loadRegs (fieldX w)⟩]

/-- The 34 rows of R76. -/
def opcodeRows : List OpcodeRow := rowsFlow ++ rowsAlu ++ rowsMiddle ++ rowsF

/-- R77, first form: the row with `w AND mask = match` if there is one, otherwise the no-op. -/
def decodeByRows (w : Word) : Instr :=
  match opcodeRows.find? (fun r => r.hits w) with
  | some r => r.build w
  | none => .nop w

/-! ### Encoding (R70 to R76) -/

/-- A word from its four digits, most significant first (R8). -/
def packDigits (top x y n : Nibble) : Word :=
  (BitVec.ofFin (w := 4) top ++ BitVec.ofFin (w := 4) x) ++ (BitVec.ofFin (w := 4) y ++ BitVec.ofFin (w := 4) n)

/-- Formats `XK` and `XS`: top nibble, register, byte. -/
def packXK (top x : Nibble) (kk : Byte) : Word :=
  (BitVec.ofFin (w := 4) top ++ BitVec.ofFin (w := 4) x) ++ kk

/-- Format `A`: top nibble, 12-bit address. -/
def packA (top : Nibble) (nnn : BitVec 12) : Word := BitVec.ofFin (w := 4) top ++ nnn

/-- Format `Z`: top nibble 0, the ignored op[11:4], key. -/
def packZ (ign : Byte) (key : Nibble) : Word := (0#4 ++ ign) ++ BitVec.ofFin (w := 4) key

/-- The word of an instruction. -/
def encode : Instr → Word
  | .cls ign => packZ ign 0x0
  | .ret ign => packZ ign 0xE
  | .jp nnn => packA 0x1 nnn
  | .call nnn => packA 0x2 nnn
  | .seByte x kk => packXK 0x3 x kk
  | .sneByte x kk => packXK 0x4 x kk
  | .seReg x y ign => packDigits 0x5 x y ign
  | .ldByte x kk => packXK 0x6 x kk
  | .addByte x kk => packXK 0x7 x kk
  | .ldReg x y => packDigits 0x8 x y 0x0
  | .orReg x y => packDigits 0x8 x y 0x1
  | .andReg x y => packDigits 0x8 x y 0x2
  | .xorReg x y => packDigits 0x8 x y 0x3
  | .addReg x y => packDigits 0x8 x y 0x4
  | .subReg x y => packDigits 0x8 x y 0x5
  | .shr x y => packDigits 0x8 x y 0x6
  | .subnReg x y => packDigits 0x8 x y 0x7
  | .shl x y => packDigits 0x8 x y 0xE
  | .sneReg x y ign => packDigits 0x9 x y ign
  | .ldI nnn => packA 0xA nnn
  | .jpV0 nnn => packA 0xB nnn
  | .rnd x kk => packXK 0xC x kk
  | .drw x y n => packDigits 0xD x y n
  | .skp x ign => packDigits 0xE x ign 0xE
  | .sknp x ign => packDigits 0xE x ign 0x1
  | .ldVxDt x => packXK 0xF x 0x07
  | .ldVxK x => packXK 0xF x 0x0A
  | .ldDtVx x => packXK 0xF x 0x15
  | .ldStVx x => packXK 0xF x 0x18
  | .addI x => packXK 0xF x 0x1E
  | .ldF x => packXK 0xF x 0x29
  | .ldB x => packXK 0xF x 0x33
  | .storeRegs x => packXK 0xF x 0x55
  | .loadRegs x => packXK 0xF x 0x65
  | .nop w => w

/-- The bytes of an instruction as memory holds them, high byte at the lower address (R70). -/
def encodeBytes (i : Instr) : List Byte := [highByte (encode i), lowByte (encode i)]

/-! ### The host's view of the decoder -/

/-- The word of the low `nbits` bits of `w`; the bits above them are 0. -/
def tableWord (nbits w : Nat) : Word := BitVec.ofNat 16 (w % 2 ^ nbits)

/-- The instruction the decoder reads from a table word laid out in bytes. -/
def decodeTableWord (nbits w : Nat) : Option Instr :=
  match decodeBytes [highByte (tableWord nbits w), lowByte (tableWord nbits w)] with
  | .ok (i, _) => some i
  | .error _ => none

end Sys2Proof
end

