-- ==== Sys2Proof/Config.lean ====
section
/-! DEFINITION. The fixed parameters of the hardware (R7 of spec/00_scope.md), the font (R36 of spec/10_state.md)
and the one free value of the manual, the random draw (R152 of spec/42_alu.md). -/

namespace Sys2Proof.Config

/-- R7 `MEM_SIZE`: main memory has addresses 0..4095. -/
@[simp] abbrev memSize : Nat := 4096

/-- R7 `STACK_DEPTH`, also `SP_MAX`. -/
@[simp] abbrev stackDepth : Nat := 16

/-- R7 `VIDEO_W`. -/
@[simp] abbrev videoW : Nat := 64

/-- R7 `VIDEO_H`. -/
@[simp] abbrev videoH : Nat := 32

/-- R7 `SPRITE_W`: a sprite row is one byte (R193). -/
@[simp] abbrev spriteW : Nat := 8

/-- R7 `PIXEL_ON`: the value the framebuffer interface shows for a set pixel (R32). -/
abbrev pixelOn : BitVec 32 := 0xFFFFFFFF#32

/-- R7 `ROM_BASE`: where the ROM image starts, and the reset value of `pc`. -/
@[simp] abbrev romBase : Nat := 0x200

/-- R7 `ROM_MAX`: the longest ROM image. -/
@[simp] abbrev romMax : Nat := 3584

/-- R7 `FONT_BASE`. -/
@[simp] abbrev fontBase : Nat := 0x50

/-- R7 `GLYPH_BYTES`. -/
@[simp] abbrev glyphBytes : Nat := 5

/-- R7 `FONT_GLYPHS` times `GLYPH_BYTES`. -/
@[simp] abbrev fontBytes : Nat := 80

/-- R7 `INSN_BYTES`: every instruction is exactly 2 bytes (R70). -/
@[simp] abbrev insnBytes : Nat := 2

/-- The default `FONT` table of R36, glyphs 0 to 7.
PRESUMED (log 3): the spec marks the bytes as general knowledge; unsafe for claims about glyph pixels. -/
def fontLow : List Byte :=
  [0xF0, 0x90, 0x90, 0x90, 0xF0] ++ [0x20, 0x60, 0x20, 0x20, 0x70] ++
  [0xF0, 0x10, 0xF0, 0x80, 0xF0] ++ [0xF0, 0x10, 0xF0, 0x10, 0xF0] ++
  [0x90, 0x90, 0xF0, 0x10, 0x10] ++ [0xF0, 0x80, 0xF0, 0x10, 0xF0] ++
  [0xF0, 0x80, 0xF0, 0x90, 0xF0] ++ [0xF0, 0x10, 0x20, 0x40, 0x40]

/-- The default `FONT` table of R36, glyphs 8 to F (PRESUMED, log 3, as `fontLow`). -/
def fontHigh : List Byte :=
  [0xF0, 0x90, 0xF0, 0x90, 0xF0] ++ [0xF0, 0x90, 0xF0, 0x10, 0xF0] ++
  [0xF0, 0x90, 0xF0, 0x90, 0x90] ++ [0xE0, 0x90, 0xE0, 0x90, 0xE0] ++
  [0xF0, 0x80, 0x80, 0x80, 0xF0] ++ [0xE0, 0x90, 0x90, 0x90, 0xE0] ++
  [0xF0, 0x80, 0xF0, 0x80, 0xF0] ++ [0xF0, 0x80, 0xF0, 0x80, 0x80]

/-- R7 `FONT` as a configuration argument (D17): 80 bytes, glyph g at 5g..5g+4 (R36).  A core is built with any one value
of it; what depends on it, `State.resetWith`, `State.applyReset` and `State.move`, takes it. -/
abbrev Font := Vector Byte fontBytes

/-- The default of `FONT` (R36, D17). -/
def defaultFont : Font := ⟨(fontLow ++ fontHigh).toArray, rfl⟩

/-- The free value of the manual (R152, U7): the draw an execution of Cxkk gets when the environment has lined none
up, numbered by the count of draws so far.
It has no body, so no proof can lean on a value of it.
DESIGN CHOICE (log 2); safe: every claim holds for every draw. -/
opaque randomByte : Nat → Byte

end Sys2Proof.Config
end

