-- ==== Sys2Proof/Machine/State.lean ====
section
/-! DEFINITION. The machine's state as plain data (R20 to R41 of spec/10_state.md), its state after reset (R39), and
the ways a step could stop (none: R238 of spec/60_exceptions.md). -/

namespace Sys2Proof.Machine

/-- The fatal conditions of R231, by name; `State.latch` records one. -/
inductive FaultCause where
  /-- Code 0: no fault has occurred since reset. -/
  | none
  /-- Code 1, raised by the fetch of any instruction when `pc > 4094`. -/
  | fetchOutOfRange
  /-- Code 2, raised by Dxyn (n > 0), Fx33, Fx55 and Fx65. -/
  | dataAddressOutOfRange
  /-- Code 3, raised by 2nnn when `sp = 16`. -/
  | stackOverflow
  /-- Code 4, raised by 00EE when `sp = 0`. -/
  | stackUnderflow
  /-- Code 5, raised by Ex9E and ExA1 when `V[x] > 15`. -/
  | keypadIndexOutOfRange
  deriving DecidableEq, Repr

/-- The fault latch (R34): written only by `raise` (R233), cleared only by reset, read only by the host. -/
structure FaultLatch where
  /-- 1 after a rejected cycle. -/
  halted : Bool
  /-- `fault_cause`. -/
  cause : FaultCause
  /-- `fault_pc`: the address of the offending instruction. -/
  pc : Sys2Proof.Word
  /-- `fault_info`: the offending value, per cause (R231). -/
  info : Sys2Proof.Word
  deriving DecidableEq, Repr

/-- The latch as reset leaves it (R39): no fault. -/
def FaultLatch.clear : FaultLatch := ⟨false, .none, 0, 0⟩

/-- Main memory (R35): the bytes that differ from the reset contents, by strictly rising address.  An address that is
not listed reads as the reset with the default `FONT` left it (`resetByte`, Machine/Memory.lean). -/
abbrev Memory := List Host.Cell

/-- `video` (R32): 32 rows, row 0 the top one; bit `px` of a row is the pixel of column `px`, 1 = set.
DESIGN CHOICE (log 9), safe: one bit a pixel, as R32 says. -/
abbrev Video := Vector (BitVec 64) 32

/-- The Machine State (R20). -/
structure State where
  /-- V0..VF (R21); VF is `v[15]` (R22). -/
  v : Vector Sys2Proof.Byte 16
  /-- `index` (R26). -/
  index : Sys2Proof.Word
  /-- `pc` (R24): between cycles, the address of the next instruction to fetch. -/
  pc : Sys2Proof.Word
  /-- `stack` (R28). -/
  stack : Vector Sys2Proof.Word 16
  /-- `sp` (R28): 0..16, the number of slots in use. -/
  sp : Fin 17
  /-- `delay_timer` (R29). -/
  delayTimer : Sys2Proof.Byte
  /-- `sound_timer` (R30). -/
  soundTimer : Sys2Proof.Byte
  /-- `keypad` (R31): bit k is key k, 1 = pressed; written by the host only. -/
  keypad : BitVec 16
  /-- `video` (R32). -/
  video : Video
  /-- `opcode` (R33): the word the last completed cycle fetched. -/
  opcode : Sys2Proof.Word
  /-- The fault latch (R34). -/
  latch : FaultLatch
  /-- `memory` (R35). -/
  memory : Memory
  /-- The MODEL's own field: draws the environment has lined up for Cxkk, the next one first (R152; log 2). -/
  draws : List Sys2Proof.Byte
  /-- The MODEL's own field: draws consumed so far, the number of the next free draw (log 2). -/
  drawCount : Nat
  deriving DecidableEq, Repr

/-- Why a step stops with no next state: never.  The fatal conditions of R231 are entered as R233 describes, in a NEXT
state whose latch says so, and R238 says that every state has a step; so there is no reason, raised by nobody (log 1,
safe). -/
inductive Fault where
  deriving DecidableEq, Repr

/-- Why a step gives no meaning to an instruction. -/
inductive Refusal where
  /-- Raised by an arm of `exec` whose instruction has no meaning yet; no arm raises it now.  Safe. -/
  | notModelled (mnemonic : String)
  deriving DecidableEq, Repr

/-- The three outcomes of a step, over this machine's own types. -/
abbrev Result := Host.Outcome State Fault Refusal

/-- The machine right after reset (R39, R260), `FONT` being the default: everything 0, `pc` at 0x200, memory at its reset
contents (nothing listed).  A core with any other `FONT` starts in `State.resetWith`.  The two model fields start with no draw lined up and none consumed (DESIGN CHOICE, log 2). -/
def State.reset : State where
  v := Vector.replicate 16 0
  index := 0
  pc := 0x200
  stack := Vector.replicate 16 0
  sp := 0
  delayTimer := 0
  soundTimer := 0
  keypad := 0
  video := Vector.replicate 32 0
  opcode := 0
  latch := FaultLatch.clear
  memory := []
  draws := []
  drawCount := 0

end Sys2Proof.Machine
end

