-- ==== Sys2Proof/Machine/Memory.lean ====
section
/-! DEFINITION. Main memory (R35, R36 of spec/10_state.md; R54, R55 of spec/20_memory.md): its reset contents, reading
and writing one byte, the canonical form, and runs of bytes. -/

namespace Sys2Proof.Machine

/-- What the reset of a core with this `FONT` leaves at an address (R39, R55): the font at 0x050..0x09F, zero everywhere
else. -/
def resetByteOf (font : Config.Font) (a : Nat) : Byte :=
  if h : Config.fontBase ≤ a ∧ a < Config.fontBase + Config.fontBytes then
    font[a - Config.fontBase]'(by omega)
  else 0

/-- What an unlisted address reads as: the reset contents of a core with the default `FONT`.  A core with another one
lists the bytes in which its font differs (`State.resetWith`; log 3, log 4). -/
def resetByte (a : Nat) : Byte := resetByteOf Config.defaultFont a

/-- The byte at an address: the listed one, or the reset contents (R54). -/
def Memory.read : Memory → Nat → Byte
  | [], a => resetByte a
  | (k, c) :: m, a => if k = a then c else Memory.read m a

/-- List a byte before the rest of a memory, unless it is what the address reads as unlisted. -/
def Memory.put (a : Nat) (b : Byte) (m : Memory) : Memory :=
  if b = resetByte a then m else (a, b) :: m

/-- Store a byte, keeping the list sorted by address and canonical. -/
def Memory.insert : Memory → Nat → Byte → Memory
  | [], a, b => Memory.put a b []
  | (k, c) :: m, a, b =>
    if k < a then (k, c) :: Memory.insert m a b
    else if k = a then Memory.put a b m
    else Memory.put a b ((k, c) :: m)

/-- Write one byte (`MemWrite`, R10): exactly the addressed byte changes (R54).  An address outside 0..4095 has no
storage (R56 e); no handler writes there, since each checks its range first (log 4, safe). -/
def Memory.write (m : Memory) (a : Nat) (b : Byte) : Memory :=
  if a < Config.memSize then Memory.insert m a b else m

/-- Write consecutive bytes at ascending addresses (R51). -/
def Memory.writeBytes (m : Memory) (base : Nat) : List Byte → Memory
  | [] => m
  | b :: bs => Memory.writeBytes (Memory.write m base b) (base + 1) bs

/-- The canonical form of the cells from address `lo` on: addresses strictly rising and inside memory, no cell equal to
what its address reads as unlisted. -/
def Memory.wfFrom (lo : Nat) : Memory → Bool
  | [] => true
  | (k, c) :: m => decide (lo ≤ k) && decide (k < Config.memSize) && (c != resetByte k) && Memory.wfFrom (k + 1) m

/-- The canonical form of a memory. -/
def Memory.wf (m : Memory) : Bool := Memory.wfFrom 0 m

end Sys2Proof.Machine
end

