-- ==== Sys2Proof/Machine/Ops.lean ====
section
/-! DEFINITION. The shared operations of the machine: registers, the advance of `pc`, raising a fatal condition and the
one way back from it, the return stack, the timers, the random draw, the fetch and the end of a cycle. -/

namespace Sys2Proof.Machine

/-! ### Registers (R21) -/

/-- Read `V[r]`. -/
def State.reg (s : State) (r : Reg) : Byte := s.v[r]

/-- Write `V[r]`; no register is hardwired (R21), VF included (R22). -/
def State.setReg (s : State) (r : Reg) (b : Byte) : State := { s with v := s.v.set r b }

/-- Write `V[0..k-1]` from the bytes at `base`, ascending (the loop of R176). -/
def State.loadRegsFrom (base : Nat) : Nat → State → State
  | 0, s => s
  | k + 1, s => (State.loadRegsFrom base k s).setReg (Fin.ofNat 16 k) (Memory.read s.memory (base + k))

/-! ### The program counter -/

/-- Step 2 of `Cycle` (R103): `pc <- pc + 2`, before the handler runs. -/
def State.advance (s : State) : State := { s with pc := s.pc + 2 }

/-- `pc <- target`. -/
def State.jump (target : Word) (s : State) : State := { s with pc := target }

/-- A skip (R120): `pc <- pc + 2` when the condition holds. -/
def State.skipIf (c : Bool) (s : State) : State := if c then { s with pc := s.pc + 2 } else s

/-! ### Fatal conditions -/

/-- The 3-bit code of a cause (R231). -/
def FaultCause.code : FaultCause → BitVec 3
  | .none => 0
  | .fetchOutOfRange => 1
  | .dataAddressOutOfRange => 2
  | .stackOverflow => 3
  | .stackUnderflow => 4
  | .keypadIndexOutOfRange => 5

/-- `raise C(info)` in a cycle that started in state `s` (R233): the state is `s` in every element, and the latch
records the cause, the address of the offending instruction (`pc` at the start of the cycle) and the info. -/
def State.raise (c : FaultCause) (info : Word) (s : State) : State :=
  { s with latch := { halted := true, cause := c, pc := s.pc, info := info } }

/-- The outcome of a rejected cycle: the raised state is the next state (log 1). -/
def reject (c : FaultCause) (info : Word) (s : State) : Result := .next (s.raise c info)

/-- The state after reset of a core with this `FONT` (R39, D17): `State.reset` with the 80 bytes of the font written at
0x050..0x09F (R36, R260). -/
def State.resetWith (font : Config.Font) : State :=
  { State.reset with memory := Memory.writeBytes State.reset.memory Config.fontBase font.toList }

/-- The only way out of the halted state (R235): reset, applied in any state of a core with this `FONT` (R260).  The
random source is the environment's, so reset leaves the lined-up draws alone. -/
def State.applyReset (s : State) (font : Config.Font) : State :=
  { State.resetWith font with draws := s.draws, drawCount := s.drawCount }

/-! ### The return stack (R28) -/

/-- `stack[sp] <- w; sp <- sp + 1`, or nothing when the stack is full (`sp = 16`). -/
def State.push? (w : Word) (s : State) : Option State :=
  if h : s.sp.val < 16 then
    some { s with stack := s.stack.set s.sp.val w, sp := ⟨s.sp.val + 1, by omega⟩ }
  else none

/-- `sp <- sp - 1` and the value of `stack[sp]` after it, or nothing when the stack is empty.  The slot keeps its value. -/
def State.pop? (s : State) : Option (Word × State) :=
  if h : 0 < s.sp.val then
    some (s.stack[s.sp.val - 1]'(by omega), { s with sp := ⟨s.sp.val - 1, by omega⟩ })
  else none

/-! ### Timers (R29, R30) -/

/-- One decrement, stopping at 0. -/
def countDown (t : Byte) : Byte := if t = 0 then 0 else t - 1

/-- Step 4 of `Cycle` (R105): both timers. -/
def State.tick (s : State) : State :=
  { s with delayTimer := countDown s.delayTimer, soundTimer := countDown s.soundTimer }

/-! ### The random draw (R152) -/

/-- The draw the next Cxkk gets: the one the environment lined up, or any byte at all (log 2). -/
def State.nextDraw (s : State) : Byte :=
  match s.draws with
  | b :: _ => b
  | [] => Config.randomByte s.drawCount

/-- Consume one draw (R10: one fresh draw per execution of Cxkk). -/
def State.consumeDraw (s : State) : State := { s with draws := s.draws.tail, drawCount := s.drawCount + 1 }

/-! ### Fetch and the end of a cycle -/

/-- `MemRead(pc, 2)` (R50, R102): the byte at `pc` is the high byte. -/
def State.fetchWord (s : State) : Word :=
  wordOfBytes (Memory.read s.memory s.pc.toNat) (Memory.read s.memory (s.pc.toNat + 1))

/-- The last address a fetch may start at (R56 a, R102). -/
def lastFetch : Nat := 4094

/-- The end of a cycle that fetched `w` and whose handler left `t`: a rejected cycle commits nothing more (R233);
another one keeps the word in `opcode` (R102) and steps the timers (R105). -/
def State.finish (w : Word) (t : State) : State :=
  if t.latch.halted then t else { t with opcode := w }.tick

/-- Where a fetch can start: `pc` itself, or 0x200 when no fetch can start at `pc`. -/
def fetchablePc (pc : Word) : Word := if lastFetch < pc.toNat then 0x200 else pc

/-- `s` ready to fetch the instruction word `w` next: the word at `pc`, in memory order, the latch not halted, and `pc`
moved to 0x200 only if no fetch can start where it stands (log 6). -/
def State.placeWord (w : Word) (s : State) : State :=
  { s with
    latch := if s.latch.halted then FaultLatch.clear else s.latch
    pc := fetchablePc s.pc
    memory := Memory.writeBytes s.memory (fetchablePc s.pc).toNat [highByte w, lowByte w] }

end Sys2Proof.Machine
end

