-- ==== Sys2Proof/Machine/Flags.lean ====
section
/-! DEFINITION. The flag computations (R27 of spec/10_state.md, R140 of spec/42_alu.md).  A flag is a byte 0 or 1, and
producing it is a write to VF (R22 b). -/

namespace Sys2Proof.Machine

/-- A condition as a flag byte. -/
def flagByte (c : Bool) : Byte := if c then 1 else 0

/-- 8xy4 (R147): the carry out of bit 7 of the unreduced sum. -/
def carryFlag (a b : Byte) : Byte := flagByte (decide (255 < a.toNat + b.toNat))

/-- 8xy5 and 8xy7 (R148, R150): strictly greater, unsigned. -/
def greaterFlag (a b : Byte) : Byte := flagByte (decide (b.toNat < a.toNat))

/-- 8xy6 (R149): bit 0, the bit a right shift drops. -/
def lowBitFlag (a : Byte) : Byte := flagByte (a.getLsbD 0)

/-- 8xyE (R151): bit 7, the bit a left shift drops. -/
def highBitFlag (a : Byte) : Byte := flagByte (a.getLsbD 7)

/-- Write the flag (R22 b): an ordinary register write to VF. -/
def State.setFlag (s : State) (f : Byte) : State := s.setReg vf f

end Sys2Proof.Machine
end

