-- ==== Sys2Proof/Machine/Operands.lean ====
section
/-! DEFINITION. Operand forms: zero-extended immediates (R72 of spec/30_encoding.md) and the one memory operand, `index`
plus an offset fixed by the instruction (R170 of spec/43_index_memory.md), with its range check (R56 of
spec/20_memory.md). -/

namespace Sys2Proof.Machine

/-- `zext_16(nnn)` (R10, R72). -/
def zextAddr (nnn : BitVec 12) : Word := nnn.setWidth 16

/-- `zext_16` of a byte (R10). -/
def zextByte (b : Byte) : Word := b.setWidth 16

/-- The base address of the memory operand (R170): `index`, not reduced modulo 4096. -/
def State.base (s : State) : Nat := s.index.toNat

/-- Whether `CheckRange(base, cnt)` raises (R56 b): some byte of a non-empty range lies above 4095. -/
def outOfRange (base cnt : Nat) : Bool := decide (0 < cnt) && decide (4095 < base + cnt - 1)

/-- The `info` of a failed range check (R56 b, R231): the lowest address of the range outside memory. -/
def rangeInfo (base : Nat) : Word := BitVec.ofNat 16 (max base 4096)

/-- `CheckRange(index, cnt)` before any change (R56): the rejected cycle, or the state the instruction leaves. -/
def State.checked (s : State) (cnt : Nat) (after : State) : Result :=
  if outOfRange s.base cnt then reject .dataAddressOutOfRange (rangeInfo s.base) s else .next after

/-- The number of registers of a block move (R175, R176): the bound is inclusive. -/
def blockCount (x : Reg) : Nat := x.val + 1

/-- The bytes of `V[0]..V[x]`, ascending (R175). -/
def State.regBlock (s : State) (x : Reg) : List Byte := s.v.toList.take (blockCount x)

/-- The decimal digits of a byte, hundreds first (R174). -/
def bcdDigits (b : Byte) : List Byte :=
  [BitVec.ofNat 8 (b.toNat / 100), BitVec.ofNat 8 (b.toNat / 10 % 10), BitVec.ofNat 8 (b.toNat % 10)]

/-- The address of the glyph for a value (R173): `0x50 + 5 * v`, the value used whole. -/
def glyphAddr (b : Byte) : Word := BitVec.ofNat 16 (Config.fontBase + Config.glyphBytes * b.toNat)

/-- The lowest-numbered pressed key (R214: first match wins, scanned 0 to 15). -/
def firstKey (keys : BitVec 16) : Option Nat := (List.range 16).find? (fun k => keys.getLsbD k)

/-- Whether key `k` is pressed (R31). -/
def State.keyDown (s : State) (k : Nat) : Bool := s.keypad.getLsbD k

end Sys2Proof.Machine
end

