-- ==== Sys2Proof/Machine/Alu.lean ====
section
/-! DEFINITION. Register load, arithmetic, logic, shift and random (spec/42_alu.md).  The cells are sequential programs
over the register file (R11 of spec/00_scope.md): each statement reads what the ones before it left, which matters when
VF is an operand (R153). -/

namespace Sys2Proof.Machine

/-- 6xkk (R141). -/
def execLdByte (x : Reg) (kk : Byte) (s : State) : Result := .next (s.advance.setReg x kk)

/-- 7xkk (R142): wraps modulo 256, no flag. -/
def execAddByte (x : Reg) (kk : Byte) (s : State) : Result := .next (s.advance.setReg x (s.reg x + kk))

/-- 8xy0 (R143). -/
def execLdReg (x y : Reg) (s : State) : Result := .next (s.advance.setReg x (s.reg y))

/-- 8xy1 (R144); VF is left alone. -/
def execOrReg (x y : Reg) (s : State) : Result := .next (s.advance.setReg x (s.reg x ||| s.reg y))

/-- 8xy2 (R145); VF is left alone. -/
def execAndReg (x y : Reg) (s : State) : Result := .next (s.advance.setReg x (s.reg x &&& s.reg y))

/-- 8xy3 (R146); VF is left alone. -/
def execXorReg (x y : Reg) (s : State) : Result := .next (s.advance.setReg x (s.reg x ^^^ s.reg y))

/-- 8xy4 (R147): the sum of the old values, then the carry to VF, then the truncated sum to `V[x]`. -/
def execAddReg (x y : Reg) (s : State) : Result :=
  let sum := s.reg x + s.reg y
  let s1 := s.advance.setFlag (carryFlag (s.reg x) (s.reg y))
  .next (s1.setReg x sum)

/-- 8xy5 (R148): the flag first; the subtraction reads the registers after it. -/
def execSubReg (x y : Reg) (s : State) : Result :=
  let s1 := s.advance.setFlag (greaterFlag (s.reg x) (s.reg y))
  .next (s1.setReg x (s1.reg x - s1.reg y))

/-- 8xy6 (R149): in place, `V[y]` neither read nor written. -/
def execShr (x : Reg) (s : State) : Result :=
  let s1 := s.advance.setFlag (lowBitFlag (s.reg x))
  .next (s1.setReg x (s1.reg x >>> 1))

/-- 8xy7 (R150): the flag first; the subtraction reads the registers after it. -/
def execSubnReg (x y : Reg) (s : State) : Result :=
  let s1 := s.advance.setFlag (greaterFlag (s.reg y) (s.reg x))
  .next (s1.setReg x (s1.reg y - s1.reg x))

/-- 8xyE (R151): in place, `V[y]` neither read nor written. -/
def execShl (x : Reg) (s : State) : Result :=
  let s1 := s.advance.setFlag (highBitFlag (s.reg x))
  .next (s1.setReg x (s1.reg x <<< 1))

/-- Cxkk (R152): one draw, masked. -/
def execRnd (x : Reg) (kk : Byte) (s : State) : Result :=
  .next (s.advance.consumeDraw.setReg x (s.nextDraw &&& kk))

end Sys2Proof.Machine
end

