-- ==== Sys2Proof/Machine/Display.lean ====
section
/-! DEFINITION. The display (spec/44_display.md): clear, and the XOR sprite compositor with its collision detector. -/

namespace Sys2Proof.Machine

/-- The pixel of column `px`, row `py` (R32, R190). -/
def pixel (v : Video) (px : Fin 64) (py : Fin 32) : Bool := v[py].getLsbD px

/-- `video[px, py] <- video[px, py] XOR 1` (R192). -/
def flipPixel (v : Video) (px : Fin 64) (py : Fin 32) : Video := v.set py (v[py] ^^^ BitVec.twoPow 64 px)

/-- A screen with no pixel set (R191). -/
def blankVideo : Video := Vector.replicate 32 0

/-- The screen during a draw, and whether a collision has been seen. -/
structure Canvas where
  video : Video
  hit : Bool
  deriving DecidableEq, Repr

/-- One sprite bit that is 1 meets the screen (R192, R194): a pixel inside the grid is flipped and collides if it was
set; outside the right or bottom edge it is discarded (R195, clip; log 12). -/
def drawPixel (px py : Nat) (c : Canvas) : Canvas :=
  if h : px < 64 ∧ py < 32 then
    { video := flipPixel c.video ⟨px, h.1⟩ ⟨py, h.2⟩, hit := c.hit || pixel c.video ⟨px, h.1⟩ ⟨py, h.2⟩ }
  else c

/-- The first `k` columns of a sprite row: column `col` is bit `7 - col` (R193). -/
def drawCols (b : Byte) (xpos py : Nat) : Nat → Canvas → Canvas
  | 0, c => c
  | k + 1, c =>
    if b.getLsbD (7 - k) then drawPixel (xpos + k) py (drawCols b xpos py k c) else drawCols b xpos py k c

/-- The first `k` rows of the sprite at `base`: row `r` is the byte at `base + r` (R193). -/
def drawRows (m : Memory) (base xpos ypos : Nat) : Nat → Canvas → Canvas
  | 0, c => c
  | k + 1, c =>
    drawCols (Memory.read m (base + k)) xpos (ypos + k) Config.spriteW (drawRows m base xpos ypos k c)

/-- 00E0 (R191); VF is left alone. -/
def execCls (s : State) : Result := .next { s.advance with video := blankVideo }

/-- Dxyn (R192): the start position wraps, the coordinates are read before VF is written, and VF is written always,
`n = 0` included. -/
def execDrw (x y : Reg) (n : Nibble) (s : State) : Result :=
  let xpos := (s.reg x).toNat % 64
  let ypos := (s.reg y).toNat % 32
  let c := drawRows s.memory s.base xpos ypos n.val { video := s.video, hit := false }
  s.checked n.val ({ s.advance with video := c.video }.setFlag (flagByte c.hit))

end Sys2Proof.Machine
end

