-- ==== Sys2Proof/Machine/Flow.lean ====
section
/-! DEFINITION. Control transfer (spec/41_flow.md) and the no-op (R106 of spec/40_cycle_and_dispatch.md).  A meaning
takes the state at the start of the cycle, makes the advance of R103 itself, and then does what its rule says (log 5). -/

namespace Sys2Proof.Machine

/-- 00EE (R121). -/
def execRet (s : State) : Result :=
  match s.advance.pop? with
  | none => reject .stackUnderflow 0 s
  | some (w, t) => .next (t.jump w)

/-- 1nnn (R122). -/
def execJp (nnn : BitVec 12) (s : State) : Result := .next (s.advance.jump (zextAddr nnn))

/-- 2nnn (R123): the pushed `pc` is already the address after the call. -/
def execCall (nnn : BitVec 12) (s : State) : Result :=
  match s.advance.push? s.advance.pc with
  | none => reject .stackOverflow 16 s
  | some t => .next (t.jump (zextAddr nnn))

/-- 3xkk (R124). -/
def execSeByte (x : Reg) (kk : Byte) (s : State) : Result := .next (s.advance.skipIf (s.reg x == kk))

/-- 4xkk (R125). -/
def execSneByte (x : Reg) (kk : Byte) (s : State) : Result := .next (s.advance.skipIf (s.reg x != kk))

/-- 5xy0 (R126). -/
def execSeReg (x y : Reg) (s : State) : Result := .next (s.advance.skipIf (s.reg x == s.reg y))

/-- 9xy0 (R127). -/
def execSneReg (x y : Reg) (s : State) : Result := .next (s.advance.skipIf (s.reg x != s.reg y))

/-- Bnnn (R128): always V0, and the sum is not reduced modulo 4096. -/
def execJpV0 (nnn : BitVec 12) (s : State) : Result :=
  .next (s.advance.jump (zextByte (s.reg 0) + zextAddr nnn))

/-- Every unmapped word (R106): nothing beyond the advance. -/
def execNop (s : State) : Result := .next s.advance

end Sys2Proof.Machine
end

