-- ==== Sys2Proof/Machine/IndexMemory.lean ====
section
/-! DEFINITION. The index register and memory (spec/43_index_memory.md).  The range is checked once before any change
(R56), and no instruction modifies its base (R170). -/

namespace Sys2Proof.Machine

/-- Annn (R171). -/
def execLdI (nnn : BitVec 12) (s : State) : Result := .next { s.advance with index := zextAddr nnn }

/-- Fx1E (R172): wraps modulo 65536, no flag, no range check. -/
def execAddI (x : Reg) (s : State) : Result := .next { s.advance with index := s.index + zextByte (s.reg x) }

/-- Fx29 (R173). -/
def execLdF (x : Reg) (s : State) : Result := .next { s.advance with index := glyphAddr (s.reg x) }

/-- Fx33 (R174): hundreds, tens, ones at `index`, `index + 1`, `index + 2`. -/
def execLdB (x : Reg) (s : State) : Result :=
  s.checked 3 { s.advance with memory := Memory.writeBytes s.memory s.base (bcdDigits (s.reg x)) }

/-- Fx55 (R175): `V[0]..V[x]` at `index..index + x`. -/
def execStoreRegs (x : Reg) (s : State) : Result :=
  s.checked (blockCount x) { s.advance with memory := Memory.writeBytes s.memory s.base (s.regBlock x) }

/-- Fx65 (R176): `V[0]..V[x]` from `index..index + x`. -/
def execLoadRegs (x : Reg) (s : State) : Result :=
  s.checked (blockCount x) (State.loadRegsFrom s.base (blockCount x) s.advance)

end Sys2Proof.Machine
end

