-- ==== Sys2Proof/Machine/KeypadTimers.lean ====
section
/-! DEFINITION. The keypad and the timers (spec/45_keypad_timers.md).  The timer step of R105 follows the handler in the
same cycle (`State.finish`), so these meanings read and write the timers before it. -/

namespace Sys2Proof.Machine

/-- Ex9E (R211): the key number is the value of `V[x]`, which must be at most 15. -/
def execSkp (x : Reg) (s : State) : Result :=
  if 15 < (s.reg x).toNat then reject .keypadIndexOutOfRange (zextByte (s.reg x)) s
  else .next (s.advance.skipIf (s.keyDown (s.reg x).toNat))

/-- ExA1 (R212). -/
def execSknp (x : Reg) (s : State) : Result :=
  if 15 < (s.reg x).toNat then reject .keypadIndexOutOfRange (zextByte (s.reg x)) s
  else .next (s.advance.skipIf (!s.keyDown (s.reg x).toNat))

/-- Fx07 (R213): the value before this cycle's decrement. -/
def execLdVxDt (x : Reg) (s : State) : Result := .next (s.advance.setReg x s.delayTimer)

/-- Fx0A (R214): the smallest pressed key, or `pc` back to this instruction's own address. -/
def execLdVxK (x : Reg) (s : State) : Result :=
  match firstKey s.keypad with
  | some k => .next (s.advance.setReg x (BitVec.ofNat 8 k))
  | none => .next (s.advance.jump (s.advance.pc - 2))

/-- Fx15 (R215). -/
def execLdDtVx (x : Reg) (s : State) : Result := .next { s.advance with delayTimer := s.reg x }

/-- Fx18 (R216). -/
def execLdStVx (x : Reg) (s : State) : Result := .next { s.advance with soundTimer := s.reg x }

end Sys2Proof.Machine
end

