-- ==== Sys2Proof/Machine/Cycle.lean ====
section
/-! DEFINITION. The single transition of the machine, `Cycle` (R100 to R108 of spec/40_cycle_and_dispatch.md). -/

namespace Sys2Proof.Machine

/-- Steps 3 and 4 on the fetched word (R104, R105), the advance of step 2 being in the meanings (log 5). -/
def runWord (w : Word) (s : State) : Result :=
  match exec (decode w) s with
  | .next t => .next (t.finish w)
  | .fault r => .fault r
  | .refused r => .refused r

/-- `Cycle` (R108): nothing when halted (R101); a fetch out of range is rejected (R102); else the fetched word runs. -/
def cycle (s : State) : Result :=
  if s.latch.halted then .next s
  else if lastFetch < s.pc.toNat then reject .fetchOutOfRange s.pc s
  else runWord s.fetchWord s

end Sys2Proof.Machine
end

