-- ==== Sys2Proof/Machine/Step.lean ====
section
/-! DEFINITION. The step of the machine, one `Cycle` (R108 of spec/40_cycle_and_dispatch.md), and a state that is about
to fetch a given word. -/

namespace Sys2Proof.Machine

/-- One step is one `Cycle`. -/
def step (s : State) : Host.Outcome State Fault Refusal := cycle s

/-- `s` with the instruction whose bits are `w` (numbered as spec/opcode_table.json numbers them) stored where the next
step fetches (log 6). -/
def State.withFetchWord (s : State) (nbits w : Nat) : State := s.placeWord (tableWord nbits w)

end Sys2Proof.Machine
end

