-- ==== Sys2Proof/Machine/HostInterface.lean ====
section
/-! DEFINITION. What the host does to the machine and sees of it, between cycles (R64 of spec/20_memory.md; R260 to R267
and R276 of spec/70_reset_and_hazards.md). -/

namespace Sys2Proof.Machine

/-! ### What the host sees -/

/-- A pixel as the framebuffer interface presents it (R32): 0 or `PIXEL_ON`. -/
def State.framePixel (s : State) (px : Fin 64) (py : Fin 32) : BitVec 32 :=
  if pixel s.video px py then Config.pixelOn else 0

/-- The framebuffer read port (R276, R190): entry `py * 64 + px` of the linear array of 2048. -/
def State.vidData (s : State) (addr : BitVec 11) : BitVec 32 :=
  s.framePixel ⟨addr.toNat % 64, by omega⟩ ⟨addr.toNat / 64, by omega⟩

/-- The port `fault_cause` (R34, R276). -/
def State.faultCode (s : State) : BitVec 3 := s.latch.cause.code

/-! ### What the host does -/

/-- ROM load (R264): the bytes verbatim from 0x200 on, those beyond memory's capacity not loaded. -/
def State.loadRom (rom : List Byte) (s : State) : State :=
  { s with memory := Memory.writeBytes s.memory Config.romBase (rom.take Config.romMax) }

/-- One beat of the ROM load port (R276): `memory[ld_addr] <- ld_data`. -/
def State.loadByte (addr : BitVec 12) (data : Byte) (s : State) : State :=
  { s with memory := Memory.write s.memory addr.toNat data }

/-- The host writes the keypad (R31). -/
def State.setKeypad (keys : BitVec 16) (s : State) : State := { s with keypad := keys }

/-- The environment lines up one more draw, after those already waiting (R152, R242 c). -/
def State.supplyDraw (b : Byte) (s : State) : State := { s with draws := s.draws ++ [b] }

/-- The inputs of one `Cycle` (R100): the 16 key bits and the draw that a Cxkk of this cycle would take. -/
def State.present (keys : BitVec 16) (rnd : Byte) (s : State) : State := { s with keypad := keys, draws := [rnd] }

/-- The moves of the host (R266; D1 of spec/92_eei_decisions.md): reset, ROM load, and a cycle with its inputs. -/
inductive HostMove where
  /-- Reset, at any time (R260). -/
  | reset
  /-- ROM load: after reset, before the first cycle (R263, R264; D21). -/
  | loadRom (rom : List Byte)
  /-- Write the keypad and request one cycle with a draw on hand. -/
  | cycle (keys : BitVec 16) (rnd : Byte)
  deriving DecidableEq, Repr

/-- What a move of the host does to a core with this `FONT`. -/
def State.move (s : State) (font : Config.Font) : HostMove → Result
  | .reset => .next (s.applyReset font)
  | .loadRom rom => .next (s.loadRom rom)
  | .cycle keys rnd => step (s.present keys rnd)

/-- A run of the host's moves. -/
def State.moves (s : State) (font : Config.Font) : List HostMove → Result
  | [] => .next s
  | h :: hs =>
    match s.move font h with
    | .next t => State.moves t font hs
    | .fault r => .fault r
    | .refused r => .refused r

/-- Whether the host keeps to R263 and R264: a ROM load comes only directly after reset; `fresh` says that the last move
was a reset. -/
def orderly : Bool → List HostMove → Bool
  | _, [] => true
  | _, .reset :: hs => orderly true hs
  | fresh, .loadRom _ :: hs => fresh && orderly false hs
  | _, .cycle _ _ :: hs => orderly false hs

end Sys2Proof.Machine
end

