-- ==== Sys2Proof/Safety.lean ====
section
/-! DEFINITION. What counts as a safe run (R234 of spec/60_exceptions.md: a halted state is never a successful end), and
the invariant of the machine (R40 of spec/10_state.md). -/

namespace Sys2Proof.Machine

/-- The fatal condition an instruction raises in a state, with the info it records, if it raises one: the table of R231
and R232, for the handlers (code 1 is the fetch's own).  Every instruction that is not listed raises nothing. -/
def fatalCondition (i : Instr) (s : State) : Option (FaultCause × Word) :=
  match i with
  | .ret _ => if s.sp.val = 0 then some (.stackUnderflow, 0) else none
  | .call _ => if s.sp.val = 16 then some (.stackOverflow, 16) else none
  | .drw _ _ n =>
    if 0 < n.val ∧ 4095 < s.index.toNat + n.val - 1 then
      some (.dataAddressOutOfRange, BitVec.ofNat 16 (max s.index.toNat 4096)) else none
  | .ldB _ =>
    if 4095 < s.index.toNat + 2 then
      some (.dataAddressOutOfRange, BitVec.ofNat 16 (max s.index.toNat 4096)) else none
  | .storeRegs x | .loadRegs x =>
    if 4095 < s.index.toNat + x.val then
      some (.dataAddressOutOfRange, BitVec.ofNat 16 (max s.index.toNat 4096)) else none
  | .skp x _ | .sknp x _ =>
    if 15 < (s.reg x).toNat then some (.keypadIndexOutOfRange, BitVec.ofNat 16 (s.reg x).toNat) else none
  | _ => none

/-- The core runs: no fatal condition since reset (R34). -/
abbrev State.Running (s : State) : Prop := s.latch.halted = false

/-- `n` cycles from `s` are safe: each is completed, none is rejected. -/
def SafeRun : Nat → State → Prop
  | 0, s => s.Running
  | n + 1, s => s.Running ∧ ∃ t, step s = .next t ∧ SafeRun n t

/-- R40 and R34: the latch is clear while the core runs, and holds one of the five causes and the address at which `pc`
still stands once it has halted (R233). -/
def State.LatchOk (s : State) : Prop :=
  (s.latch.halted = false → s.latch = FaultLatch.clear) ∧
  (s.latch.halted = true → s.latch.cause ≠ .none ∧ s.latch.pc = s.pc)

/-- R40, R25: `pc` is at most 0x10FE, and every return address is one a call can have pushed, at most 4096. -/
def State.PcOk (s : State) : Prop :=
  s.pc.toNat ≤ 0x10FE ∧ ∀ i : Fin 16, s.stack[i].toNat ≤ 4096

/-- The invariant: memory in canonical form, the latch consistent, `pc` and the return addresses bounded. -/
def State.Inv (s : State) : Prop := Memory.wf s.memory = true ∧ s.LatchOk ∧ s.PcOk

end Sys2Proof.Machine
end

