-- ==== Sys2Proof/Certificates/Slice0/Obligations.lean ====
section
/-! DEFINITION. The statements for the provers, each a Prop about the machine, from the numbered rules of spec/.

How the frames are said: a conclusion `exec i s = .next { s with … }` names every field of State that changes; every field
it does not name (registers, memory and so every byte of it, stack, timers, video, latch, …) is as before.  The
meanings make the advance of R103 themselves (log 5), so `s` is the state at the start of the cycle, `s.pc` the
instruction's own address, and a completed instruction that transfers no control leaves `pc` at `s.pc + 2`. -/

namespace Sys2Proof.Stmt

open Sys2Proof Sys2Proof.Machine

/-- `exec` completes; only `pc` (+2) and `V[x]` change, and `V[x]` holds the number `n`. -/
def WritesReg (i : Instr) (s : State) (x : Reg) (n : Nat) : Prop :=
  ∃ v : Vector Byte 16, exec i s = .next { s with pc := s.pc + 2, v := v } ∧
    v[x].toNat = n ∧ ∀ r : Reg, r ≠ x → v[r] = s.v[r]

/-- `exec` completes; only `pc` (+2), `V[x]` and VF change, and they hold the numbers `n` and `f`. -/
def WritesRegAndFlag (i : Instr) (s : State) (x : Reg) (n f : Nat) : Prop :=
  ∃ v : Vector Byte 16, exec i s = .next { s with pc := s.pc + 2, v := v } ∧
    v[x].toNat = n ∧ v[vf].toNat = f ∧ ∀ r : Reg, r ≠ x → r ≠ vf → v[r] = s.v[r]

/-- The cycle is rejected (R233): the next state is `s` in every element, and the latch holds the cause, the address of
the instruction and the info. -/
def Rejects (i : Instr) (s : State) (c : FaultCause) (info : Nat) : Prop :=
  exec i s = .next { s with latch := { halted := true, cause := c, pc := s.pc, info := BitVec.ofNat 16 info } }

/-- 1 if the condition holds, else 0 (the `[c]` of R153). -/
def bit (c : Bool) : Nat := if c then 1 else 0

/-- R193, R195: whether the `n`-row sprite at `index`, drawn at (`xpos`, `ypos`), has a 1 on the pixel (`px`, `py`): row
`py - ypos` is the byte at `index + (py - ypos)`, column `px - xpos` its bit `7 - (px - xpos)`. -/
def spriteOn (s : State) (xpos ypos n px py : Nat) : Bool :=
  decide (xpos ≤ px ∧ px < xpos + 8 ∧ ypos ≤ py ∧ py < ypos + n) &&
    (Memory.read s.memory (s.index.toNat + (py - ypos))).getLsbD (7 - (px - xpos))

/-- The six flag writers (R27). -/
def writesFlag : Instr → Bool
  | .addReg _ _ | .subReg _ _ | .shr _ _ | .subnReg _ _ | .shl _ _ | .drw _ _ _ => true
  | _ => false

/-- The instruction names VF as a destination (R23): `x` is 0xF in an instruction that writes `V[x]`, or the block load
reaches it. -/
def namesVf : Instr → Bool
  | .ldByte x _ | .addByte x _ | .ldReg x _ | .orReg x _ | .andReg x _ | .xorReg x _ | .rnd x _ | .ldVxDt x | .ldVxK x
  | .loadRegs x => x == vf
  | _ => false

/-- The instructions that can leave `pc` elsewhere than at the next instruction (R25). -/
def transfersControl : Instr → Bool
  | .ret _ | .jp _ | .call _ | .jpV0 _ | .seByte _ _ | .sneByte _ _ | .seReg _ _ _ | .sneReg _ _ _ | .skp _ _
  | .sknp _ _ | .ldVxK _ => true
  | _ => false

/-- The value a timer has before the decrement of step 4: what Fx15 put there, or what was there. -/
def delayBefore (i : Instr) (s : State) : Byte :=
  match i with
  | .ldDtVx x => s.reg x
  | _ => s.delayTimer

/-- As `delayBefore`, for Fx18. -/
def soundBefore (i : Instr) (s : State) : Byte :=
  match i with
  | .ldStVx x => s.reg x
  | _ => s.soundTimer

end Sys2Proof.Stmt

open Sys2Proof Sys2Proof.Machine Sys2Proof.Stmt

/-! ### Control transfer (spec/41_flow.md) -/

/-- R121: 00EE pops `pc`; the slot keeps its value.  That an empty stack is `StackUnderflow(0)` is the spec's own decision
D5 (spec/92_eei_decisions.md, "Checked ... Not clamped"). -/
def Obligations.RetPopsThePc : Prop :=
  (∀ w : Word, w &&& 0xF00F#16 = 0x000E#16 → decode w = .ret (fieldIgn w)) ∧
  ∀ (ign : Byte) (s : State),
    (∀ h : 0 < s.sp.val,
      exec (.ret ign) s = .next { s with sp := ⟨s.sp.val - 1, by omega⟩, pc := s.stack[s.sp.val - 1] }) ∧
    (s.sp.val = 0 → Rejects (.ret ign) s .stackUnderflow 0)

/-- R122: 1nnn puts `nnn` in `pc`. -/
def Obligations.JpSetsPc : Prop :=
  (∀ w : Word, w &&& 0xF000#16 = 0x1000#16 → decode w = .jp (fieldNNN w)) ∧
  ∀ (nnn : BitVec 12) (s : State), exec (.jp nnn) s = .next { s with pc := BitVec.ofNat 16 nnn.toNat }

/-- R123: 2nnn pushes the address after the call and jumps.  That a full stack is `StackOverflow(16)` is the spec's own
decision D5. -/
def Obligations.CallPushesAndJumps : Prop :=
  (∀ w : Word, w &&& 0xF000#16 = 0x2000#16 → decode w = .call (fieldNNN w)) ∧
  ∀ (nnn : BitVec 12) (s : State),
    (∀ h : s.sp.val < 16,
      exec (.call nnn) s = .next { s with
        stack := s.stack.set s.sp.val (s.pc + 2)
        sp := ⟨s.sp.val + 1, by omega⟩
        pc := BitVec.ofNat 16 nnn.toNat }) ∧
    (s.sp.val = 16 → Rejects (.call nnn) s .stackOverflow 16)

/-- R121 and R123, the round trip of the source's section 8: a return in any state whose stack and `sp` are as a call left
them comes back to the address after the call, with `sp` as before the call. -/
def Obligations.CallThenRetComesBack : Prop :=
  ∀ (nnn : BitVec 12) (ign : Byte) (s u : State), s.sp.val < 16 →
    ∀ t, exec (.call nnn) s = .next t → u.stack = t.stack → u.sp = t.sp →
      exec (.ret ign) u = .next { u with pc := s.pc + 2, sp := s.sp }

/-- R124 and R125: the byte skips advance `pc` by 4 when taken and by 2 when not, and change nothing else. -/
def Obligations.ByteSkips : Prop :=
  (∀ w : Word, w &&& 0xF000#16 = 0x3000#16 → decode w = .seByte (fieldX w) (fieldKK w)) ∧
  (∀ w : Word, w &&& 0xF000#16 = 0x4000#16 → decode w = .sneByte (fieldX w) (fieldKK w)) ∧
  ∀ (x : Reg) (kk : Byte) (s : State),
    exec (.seByte x kk) s = .next { s with pc := s.pc + if s.reg x = kk then 4 else 2 } ∧
    exec (.sneByte x kk) s = .next { s with pc := s.pc + if s.reg x = kk then 2 else 4 }

/-- R126 and R127: the register skips, with the low nibble ignored. -/
def Obligations.RegisterSkips : Prop :=
  (∀ w : Word, w &&& 0xF000#16 = 0x5000#16 → decode w = .seReg (fieldX w) (fieldY w) (fieldN w)) ∧
  (∀ w : Word, w &&& 0xF000#16 = 0x9000#16 → decode w = .sneReg (fieldX w) (fieldY w) (fieldN w)) ∧
  ∀ (x y : Reg) (ign : Nibble) (s : State),
    exec (.seReg x y ign) s = .next { s with pc := s.pc + if s.reg x = s.reg y then 4 else 2 } ∧
    exec (.sneReg x y ign) s = .next { s with pc := s.pc + if s.reg x = s.reg y then 2 else 4 }

/-- R128: Bnnn puts the exact sum `V0 + nnn` in `pc`, at most 0x10FE, not reduced modulo 4096.  What the next fetch does
there is `FatalConditionsAreExactlyTheTable`. -/
def Obligations.JpV0AddsV0 : Prop :=
  (∀ w : Word, w &&& 0xF000#16 = 0xB000#16 → decode w = .jpV0 (fieldNNN w)) ∧
  ∀ (nnn : BitVec 12) (s : State), ∃ p : Word,
    exec (.jpV0 nnn) s = .next { s with pc := p } ∧ p.toNat = (s.reg 0).toNat + nnn.toNat ∧ p.toNat ≤ 0x10FE

/-- R106: a no-op changes nothing but `pc`; its cycle keeps the word in `opcode` and steps the timers. -/
def Obligations.NopOnlyAdvances : Prop :=
  (∀ (w : Word) (s : State), exec (.nop w) s = .next { s with pc := s.pc + 2 }) ∧
  ∀ s : State, s.Running → s.pc.toNat ≤ 4094 → unmapped s.fetchWord = true →
    ∃ d b : Byte, step s = .next { s with
        pc := s.pc + 2, opcode := s.fetchWord, delayTimer := d, soundTimer := b } ∧
      d.toNat = s.delayTimer.toNat - 1 ∧ b.toNat = s.soundTimer.toNat - 1

/-! ### Register load, arithmetic, logic, shift, random (spec/42_alu.md) -/

/-- R141 and R143: the two loads of a register. -/
def Obligations.LoadsWriteOneRegister : Prop :=
  (∀ w : Word, w &&& 0xF000#16 = 0x6000#16 → decode w = .ldByte (fieldX w) (fieldKK w)) ∧
  (∀ w : Word, w &&& 0xF00F#16 = 0x8000#16 → decode w = .ldReg (fieldX w) (fieldY w)) ∧
  ∀ (x y : Reg) (kk : Byte) (s : State),
    WritesReg (.ldByte x kk) s x kk.toNat ∧ WritesReg (.ldReg x y) s x (s.reg y).toNat

/-- R142: 7xkk adds modulo 256 and touches no other register: VF only if it is the destination. -/
def Obligations.AddByteWrapsAndSetsNoFlag : Prop :=
  (∀ w : Word, w &&& 0xF000#16 = 0x7000#16 → decode w = .addByte (fieldX w) (fieldKK w)) ∧
  ∀ (x : Reg) (kk : Byte) (s : State), WritesReg (.addByte x kk) s x (((s.reg x).toNat + kk.toNat) % 256)

/-- R144, R145 and R146: the logic instructions, bit by bit; VF is unchanged unless it is the destination. -/
def Obligations.LogicIsBitwiseAndSetsNoFlag : Prop :=
  (∀ w : Word, w &&& 0xF00F#16 = 0x8001#16 → decode w = .orReg (fieldX w) (fieldY w)) ∧
  (∀ w : Word, w &&& 0xF00F#16 = 0x8002#16 → decode w = .andReg (fieldX w) (fieldY w)) ∧
  (∀ w : Word, w &&& 0xF00F#16 = 0x8003#16 → decode w = .xorReg (fieldX w) (fieldY w)) ∧
  ∀ (x y : Reg) (s : State), ∃ a o e : Byte,
    WritesReg (.orReg x y) s x o.toNat ∧ WritesReg (.andReg x y) s x a.toNat ∧ WritesReg (.xorReg x y) s x e.toNat ∧
    ∀ i : Fin 8,
      o.getLsbD i = ((s.reg x).getLsbD i || (s.reg y).getLsbD i) ∧
      a.getLsbD i = ((s.reg x).getLsbD i && (s.reg y).getLsbD i) ∧
      e.getLsbD i = ((s.reg x).getLsbD i ^^ (s.reg y).getLsbD i)

/-- R147, with the cases of VF as an operand: the carry comes from the unreduced sum, and the truncated sum is written
last (the order of the two writes is the spec's own decision D12). -/
def Obligations.AddRegSumAndCarry : Prop :=
  (∀ w : Word, w &&& 0xF00F#16 = 0x8004#16 → decode w = .addReg (fieldX w) (fieldY w)) ∧
  ∀ (x y : Reg) (s : State),
    let a := (s.reg x).toNat
    let b := (s.reg y).toNat
    (x ≠ vf → WritesRegAndFlag (.addReg x y) s x ((a + b) % 256) (bit (255 < a + b))) ∧
    (x = vf → WritesReg (.addReg x y) s vf ((a + b) % 256))

/-- R148, with the cases of VF as an operand: strictly greater is the flag, and the subtraction sees the new VF. -/
def Obligations.SubRegDifferenceAndFlag : Prop :=
  (∀ w : Word, w &&& 0xF00F#16 = 0x8005#16 → decode w = .subReg (fieldX w) (fieldY w)) ∧
  ∀ (x y : Reg) (s : State),
    let a := (s.reg x).toNat
    let b := (s.reg y).toNat
    (x ≠ vf → y ≠ vf → WritesRegAndFlag (.subReg x y) s x ((256 + a - b) % 256) (bit (b < a))) ∧
    (x = vf → y ≠ vf → WritesReg (.subReg x y) s vf ((256 + bit (b < a) - b) % 256)) ∧
    (x ≠ vf → y = vf → WritesRegAndFlag (.subReg x y) s x ((256 + a - bit (b < a)) % 256) (bit (b < a))) ∧
    (x = vf → y = vf → WritesReg (.subReg x y) s vf 0)

/-- R149: 8xy6 shifts `V[x]` right in place, the bit shifted out goes to VF, `V[y]` plays no part; `x = 0xF` ends as 0. -/
def Obligations.ShrHalvesAndKeepsTheLowBit : Prop :=
  (∀ w : Word, w &&& 0xF00F#16 = 0x8006#16 → decode w = .shr (fieldX w) (fieldY w)) ∧
  ∀ (x y : Reg) (s : State),
    let a := (s.reg x).toNat
    (x ≠ vf → WritesRegAndFlag (.shr x y) s x (a / 2) (a % 2)) ∧
    (x = vf → WritesReg (.shr x y) s vf 0)

/-- R150, with the cases of VF as an operand (that the difference wraps is the spec's inference from R140). -/
def Obligations.SubnRegDifferenceAndFlag : Prop :=
  (∀ w : Word, w &&& 0xF00F#16 = 0x8007#16 → decode w = .subnReg (fieldX w) (fieldY w)) ∧
  ∀ (x y : Reg) (s : State),
    let a := (s.reg x).toNat
    let b := (s.reg y).toNat
    (x ≠ vf → y ≠ vf → WritesRegAndFlag (.subnReg x y) s x ((256 + b - a) % 256) (bit (a < b))) ∧
    (x = vf → y ≠ vf → WritesReg (.subnReg x y) s vf ((256 + b - bit (a < b)) % 256)) ∧
    (x ≠ vf → y = vf → WritesRegAndFlag (.subnReg x y) s x ((256 + bit (a < b) - a) % 256) (bit (a < b))) ∧
    (x = vf → y = vf → WritesReg (.subnReg x y) s vf 0)

/-- R151: 8xyE shifts `V[x]` left in place, bit 7 goes to VF, `V[y]` plays no part; `x = 0xF` ends as 0 or 2. -/
def Obligations.ShlDoublesAndKeepsTheHighBit : Prop :=
  (∀ w : Word, w &&& 0xF00F#16 = 0x800E#16 → decode w = .shl (fieldX w) (fieldY w)) ∧
  ∀ (x y : Reg) (s : State),
    let a := (s.reg x).toNat
    (x ≠ vf → WritesRegAndFlag (.shl x y) s x (a * 2 % 256) (a / 128)) ∧
    (x = vf → WritesReg (.shl x y) s vf (if a < 0x80 then 0 else 2))

/-- R152: Cxkk writes one draw under the mask and consumes exactly that draw.  The draw is a free value (the spec's
decision D15): the statement holds for every list of draws and, with none lined up, whatever the opaque draw is.  That
draws are a list and a counter in State is the model's choice (log 2). -/
def Obligations.RndMasksOneDraw : Prop :=
  (∀ w : Word, w &&& 0xF000#16 = 0xC000#16 → decode w = .rnd (fieldX w) (fieldKK w)) ∧
  ∀ (x : Reg) (kk : Byte) (s : State), ∃ (d : Byte) (v : Vector Byte 16),
    exec (.rnd x kk) s = .next { s with
      pc := s.pc + 2, v := v, draws := s.draws.drop 1, drawCount := s.drawCount + 1 } ∧
    v[x] = d &&& kk ∧ v[x] &&& ~~~kk = 0 ∧ (∀ r : Reg, r ≠ x → v[r] = s.v[r]) ∧
    ∀ (e : Byte) (es : List Byte), s.draws = e :: es → d = e

/-! ### The index register and memory (spec/43_index_memory.md) -/

/-- R171, R172 and R173: the three writers of `index`, none of which checks a range or touches VF.  The 16-bit wrap of
Fx1E and the whole `V[x]` of Fx29 are the spec's own decisions D14 and D28. -/
def Obligations.IndexWriters : Prop :=
  (∀ w : Word, w &&& 0xF000#16 = 0xA000#16 → decode w = .ldI (fieldNNN w)) ∧
  (∀ w : Word, w &&& 0xF0FF#16 = 0xF01E#16 → decode w = .addI (fieldX w)) ∧
  (∀ w : Word, w &&& 0xF0FF#16 = 0xF029#16 → decode w = .ldF (fieldX w)) ∧
  ∀ (nnn : BitVec 12) (x : Reg) (s : State), ∃ a b c : Word,
    exec (.ldI nnn) s = .next { s with pc := s.pc + 2, index := a } ∧ a.toNat = nnn.toNat ∧
    exec (.addI x) s = .next { s with pc := s.pc + 2, index := b } ∧
      b.toNat = (s.index.toNat + (s.reg x).toNat) % 65536 ∧
    exec (.ldF x) s = .next { s with pc := s.pc + 2, index := c } ∧ c.toNat = 0x50 + 5 * (s.reg x).toNat

/-- R174: Fx33 stores hundreds, tens, ones at `index`, `index + 1`, `index + 2`, and no other byte; it is rejected, with
nothing written, when `index + 2 > 4095` (the check and its info are the spec's own decision D6, R56). -/
def Obligations.BcdStoresThreeDigits : Prop :=
  (∀ w : Word, w &&& 0xF0FF#16 = 0xF033#16 → decode w = .ldB (fieldX w)) ∧
  ∀ (x : Reg) (s : State), Memory.wf s.memory = true →
    (s.index.toNat + 2 ≤ 4095 → ∃ m : Memory,
      exec (.ldB x) s = .next { s with pc := s.pc + 2, memory := m } ∧
      (Memory.read m s.index.toNat).toNat = (s.reg x).toNat / 100 ∧
      (Memory.read m (s.index.toNat + 1)).toNat = (s.reg x).toNat / 10 % 10 ∧
      (Memory.read m (s.index.toNat + 2)).toNat = (s.reg x).toNat % 10 ∧
      ∀ a : Nat, a < s.index.toNat ∨ s.index.toNat + 2 < a → Memory.read m a = Memory.read s.memory a) ∧
    (4095 < s.index.toNat + 2 → Rejects (.ldB x) s .dataAddressOutOfRange (max s.index.toNat 4096))

/-- R175: Fx55 stores `V[0]..V[x]`, x + 1 bytes, at `index..index + x`, and no other byte; it is rejected, with nothing
written, when `index + x > 4095` (decision D6, R56). -/
def Obligations.StoreRegsStoresTheBlock : Prop :=
  (∀ w : Word, w &&& 0xF0FF#16 = 0xF055#16 → decode w = .storeRegs (fieldX w)) ∧
  ∀ (x : Reg) (s : State), Memory.wf s.memory = true →
    (s.index.toNat + x.val ≤ 4095 → ∃ m : Memory,
      exec (.storeRegs x) s = .next { s with pc := s.pc + 2, memory := m } ∧
      (∀ r : Reg, r ≤ x → Memory.read m (s.index.toNat + r.val) = s.reg r) ∧
      ∀ a : Nat, a < s.index.toNat ∨ s.index.toNat + x.val < a → Memory.read m a = Memory.read s.memory a) ∧
    (4095 < s.index.toNat + x.val → Rejects (.storeRegs x) s .dataAddressOutOfRange (max s.index.toNat 4096))

/-- R176: Fx65 loads `V[0]..V[x]` from `index..index + x`, and no other register; it is rejected, with no register
written, when `index + x > 4095` (decision D6, R56). -/
def Obligations.LoadRegsLoadsTheBlock : Prop :=
  (∀ w : Word, w &&& 0xF0FF#16 = 0xF065#16 → decode w = .loadRegs (fieldX w)) ∧
  ∀ (x : Reg) (s : State),
    (s.index.toNat + x.val ≤ 4095 → ∃ v : Vector Byte 16,
      exec (.loadRegs x) s = .next { s with pc := s.pc + 2, v := v } ∧
      (∀ r : Reg, r ≤ x → v[r] = Memory.read s.memory (s.index.toNat + r.val)) ∧
      ∀ r : Reg, x < r → v[r] = s.v[r]) ∧
    (4095 < s.index.toNat + x.val → Rejects (.loadRegs x) s .dataAddressOutOfRange (max s.index.toNat 4096))

/-- The round trip of R176 (source, section 8): a block load in any state whose memory and `index` are as a block store
of the same bound left them gives the stored registers back. -/
def Obligations.StoreThenLoadGivesTheRegistersBack : Prop :=
  ∀ (x : Reg) (s u : State), Memory.wf s.memory = true → s.index.toNat + x.val ≤ 4095 →
    ∀ t, exec (.storeRegs x) s = .next t → u.memory = t.memory → u.index = s.index →
      ∃ w, exec (.loadRegs x) u = .next w ∧ ∀ r : Reg, w.reg r = if r ≤ x then s.reg r else u.reg r

/-- R62 (marked derived in the spec, from R59 and R102): a store is seen by the next fetch: after Fx55, a fetch at an address inside the stored block gives the word of
the two stored bytes. -/
def Obligations.StoredBytesAreFetched : Prop :=
  ∀ (x : Reg) (s : State), Memory.wf s.memory = true → s.index.toNat + x.val ≤ 4095 →
    ∀ t, exec (.storeRegs x) s = .next t →
      ∀ (q r : Reg), r.val = q.val + 1 → r ≤ x → ∀ u : State, u.memory = t.memory →
        u.pc.toNat = s.index.toNat + q.val → u.fetchWord.toNat = (s.reg q).toNat * 256 + (s.reg r).toNat

/-! ### The display (spec/44_display.md) -/

/-- R191: 00E0 clears every pixel and changes nothing else, VF included. -/
def Obligations.ClsClearsEveryPixel : Prop :=
  (∀ w : Word, w &&& 0xF00F#16 = 0x0000#16 → decode w = .cls (fieldIgn w)) ∧
  ∀ (ign : Byte) (s : State), ∃ d : Video,
    exec (.cls ign) s = .next { s with pc := s.pc + 2, video := d } ∧ ∀ px py, pixel d px py = false

/-- R192 to R195: Dxyn flips exactly the pixels of the grid on which the sprite, placed at
(`V[x] mod 64`, `V[y] mod 32`) and clipped at the edges, has a 1; VF is 1 exactly when one of them was set; nothing else
changes.  A range that leaves memory rejects the cycle; `n = 0` never does.  The clipping, the sprite format, VF = 0
without a collision and the range check are the spec's own decisions D8, D9, D10 and D6 (log 12). -/
def Obligations.DrwComposesPixelwise : Prop :=
  (∀ w : Word, w &&& 0xF000#16 = 0xD000#16 → decode w = .drw (fieldX w) (fieldY w) (fieldN w)) ∧
  ∀ (x y : Reg) (n : Nibble) (s : State),
    let on := spriteOn s ((s.reg x).toNat % 64) ((s.reg y).toNat % 32) n.val
    (n.val = 0 ∨ s.index.toNat + n.val ≤ 4096 → ∃ (d : Video) (v : Vector Byte 16),
      exec (.drw x y n) s = .next { s with pc := s.pc + 2, video := d, v := v } ∧
      (∀ (px : Fin 64) (py : Fin 32), pixel d px py = (pixel s.video px py ^^ on px.val py.val)) ∧
      ((∃ (px : Fin 64) (py : Fin 32), on px.val py.val = true ∧ pixel s.video px py = true) → v[vf] = 1) ∧
      ((¬ ∃ (px : Fin 64) (py : Fin 32), on px.val py.val = true ∧ pixel s.video px py = true) → v[vf] = 0) ∧
      ∀ r : Reg, r ≠ vf → v[r] = s.v[r]) ∧
    (0 < n.val → 4095 < s.index.toNat + n.val - 1 →
      Rejects (.drw x y n) s .dataAddressOutOfRange (max s.index.toNat 4096))

/-- The double XOR of R192: the same draw again, with the registers as at the first, restores the screen, and on a screen
that was clear it ends with VF = 1 as soon as some sprite bit fell inside the grid. -/
def Obligations.DrawingTwiceErases : Prop :=
  ∀ (x y : Reg) (n : Nibble) (s : State), n.val = 0 ∨ s.index.toNat + n.val ≤ 4096 →
    ∀ t, exec (.drw x y n) s = .next t → ∃ u, exec (.drw x y n) { t with v := s.v } = .next u ∧
      u.video = s.video ∧
      ((∀ px py, pixel s.video px py = false) →
        (∃ (px : Fin 64) (py : Fin 32),
          spriteOn s ((s.reg x).toNat % 64) ((s.reg y).toNat % 32) n.val px.val py.val = true) → u.reg vf = 1)

/-! ### Keypad and timers (spec/45_keypad_timers.md) -/

/-- R211 and R212: the key skips test the key whose number is the value of `V[x]`.  That a number above 15 is
`KeypadIndexOutOfRange` is the spec's own decision D7. -/
def Obligations.KeySkips : Prop :=
  (∀ w : Word, w &&& 0xF00F#16 = 0xE00E#16 → decode w = .skp (fieldX w) (fieldY w)) ∧
  (∀ w : Word, w &&& 0xF00F#16 = 0xE001#16 → decode w = .sknp (fieldX w) (fieldY w)) ∧
  ∀ (x : Reg) (ign : Nibble) (s : State),
    ((s.reg x).toNat ≤ 15 →
      exec (.skp x ign) s = .next { s with
        pc := s.pc + if s.keypad.getLsbD (s.reg x).toNat = true then 4 else 2 } ∧
      exec (.sknp x ign) s = .next { s with
        pc := s.pc + if s.keypad.getLsbD (s.reg x).toNat = true then 2 else 4 }) ∧
    (15 < (s.reg x).toNat →
      Rejects (.skp x ign) s .keypadIndexOutOfRange (s.reg x).toNat ∧
      Rejects (.sknp x ign) s .keypadIndexOutOfRange (s.reg x).toNat)

/-- R214: Fx0A takes the lowest-numbered pressed key, or stays at its own address with nothing changed. -/
def Obligations.KeyWaitTakesTheLowestKey : Prop :=
  (∀ w : Word, w &&& 0xF0FF#16 = 0xF00A#16 → decode w = .ldVxK (fieldX w)) ∧
  ∀ (x : Reg) (s : State),
    (∀ k : Fin 16, s.keypad.getLsbD k = true → (∀ j : Fin 16, j < k → s.keypad.getLsbD j = false) →
      WritesReg (.ldVxK x) s x k.val) ∧
    ((∀ k : Fin 16, s.keypad.getLsbD k = false) → exec (.ldVxK x) s = .next s)

/-- R213: Fx07 reads the delay timer as it stands before its own cycle's decrement; the cycle ends with each timer one
less, stopping at 0.  The direction of the move is the spec's own decision D18. -/
def Obligations.TimerReadPrecedesTheDecrement : Prop :=
  (∀ w : Word, w &&& 0xF0FF#16 = 0xF007#16 → decode w = .ldVxDt (fieldX w)) ∧
  (∀ (x : Reg) (s : State), WritesReg (.ldVxDt x) s x s.delayTimer.toNat) ∧
  ∀ (s : State) (x : Reg), s.Running → s.pc.toNat ≤ 4094 → decode s.fetchWord = .ldVxDt x →
    ∃ (d b : Byte) (v : Vector Byte 16), d.toNat = s.delayTimer.toNat - 1 ∧ b.toNat = s.soundTimer.toNat - 1 ∧
      v[x] = s.delayTimer ∧ (∀ r : Reg, r ≠ x → v[r] = s.v[r]) ∧
      step s = .next { s with pc := s.pc + 2, opcode := s.fetchWord, v := v, delayTimer := d, soundTimer := b }

/-- R215, R216 and R268: Fx15 and Fx18 write a timer, which the same cycle then decrements: written with `v` it ends the
cycle at `v - 1`, or 0 for 0; the frame is that of the whole cycle.  The direction is the spec's own decision D18. -/
def Obligations.TimerWriteIsSteppedInItsOwnCycle : Prop :=
  (∀ w : Word, w &&& 0xF0FF#16 = 0xF015#16 → decode w = .ldDtVx (fieldX w)) ∧
  (∀ w : Word, w &&& 0xF0FF#16 = 0xF018#16 → decode w = .ldStVx (fieldX w)) ∧
  (∀ (x : Reg) (s : State),
    exec (.ldDtVx x) s = .next { s with pc := s.pc + 2, delayTimer := s.reg x } ∧
    exec (.ldStVx x) s = .next { s with pc := s.pc + 2, soundTimer := s.reg x }) ∧
  ∀ (s : State) (x : Reg), s.Running → s.pc.toNat ≤ 4094 →
    (decode s.fetchWord = .ldDtVx x → ∃ d b : Byte, d.toNat = (s.reg x).toNat - 1 ∧
      b.toNat = s.soundTimer.toNat - 1 ∧
      step s = .next { s with pc := s.pc + 2, opcode := s.fetchWord, delayTimer := d, soundTimer := b }) ∧
    (decode s.fetchWord = .ldStVx x → ∃ d b : Byte, d.toNat = s.delayTimer.toNat - 1 ∧
      b.toNat = (s.reg x).toNat - 1 ∧
      step s = .next { s with pc := s.pc + 2, opcode := s.fetchWord, delayTimer := d, soundTimer := b })

/-- R105: every completed cycle ends with each timer one less than the handler left it, stopping at 0, whatever the
instruction.  The handler leaves the old value but for Fx15 and Fx18 (R215, R216; their direction is the spec's own
decision D18).  A cycle that is rejected, or requested of a halted core, leaves both timers alone: the spec's own decisions
D3 and D4 (C15 of spec/90_conflicts.md; log 12). -/
def Obligations.EveryCompletedCycleStepsTheTimers : Prop :=
  ∀ s t : State, step s = .next t →
    (s.Running → t.Running →
      t.delayTimer.toNat = (delayBefore (decode s.fetchWord) s).toNat - 1 ∧
      t.soundTimer.toNat = (soundBefore (decode s.fetchWord) s).toNat - 1) ∧
    (t.latch.halted = true → t.delayTimer = s.delayTimer ∧ t.soundTimer = s.soundTimer)

/-! ### The cycle and the fatal conditions (spec/40_cycle_and_dispatch.md, spec/60_exceptions.md) -/

/-- R108 with R50, R102, R104 and R105: when the core runs and the two bytes at `pc`, the first one high, decode to the
well-formed instruction `i`, the step is `exec` of `i`; a completed cycle keeps the word in `opcode` and steps the
timers.  That a rejected one keeps neither is the spec's own decision D3 (R233, log 12); that the advance of R103 is inside
`exec` is the model's choice (log 5). -/
def Obligations.StepRunsTheDecodedInstruction : Prop :=
  ∀ (s t : State) (w : Word) (i : Instr), s.Running → s.pc.toNat ≤ 4094 →
    w.toNat = (Memory.read s.memory s.pc.toNat).toNat * 256 + (Memory.read s.memory (s.pc.toNat + 1)).toNat →
    decode w = i → i.wellFormed = true → exec i s = .next t →
    (t.latch.halted = true → step s = .next t) ∧
    (t.latch.halted = false → step s = .next { t with
      opcode := w
      delayTimer := if t.delayTimer = 0 then 0 else t.delayTimer - 1
      soundTimer := if t.soundTimer = 0 then 0 else t.soundTimer - 1 })

/-- R101, R234 and R235 (the spec's own decision D4): a halted core never moves again, however many cycles are requested;
no move of the host but reset touches its fault latch; after a reset it runs. -/
def Obligations.HaltedCoreNeverMoves : Prop :=
  (∀ (n : Nat) (s : State), s.latch.halted = true → Host.Core.run Sys2Proof.core n s = .next s) ∧
  (∀ (font : Config.Font) (s t : State) (h : HostMove), s.latch.halted = true → h ≠ .reset → s.move font h = .next t →
    t.latch = s.latch) ∧
  ∀ (font : Config.Font) (s t : State), s.move font .reset = .next t → t.Running

/-- R233 (the spec's own decision D3): a rejected cycle commits nothing: the next state is the old one in every element but
the latch, which records the cause, the address of the instruction and the info of the one condition that was raised. -/
def Obligations.RejectedCycleCommitsNothing : Prop :=
  ∀ s t : State, s.Running → step s = .next t → t.latch.halted = true →
    ∃ (c : FaultCause) (info : Word), c ≠ .none ∧
      t = { s with latch := { halted := true, cause := c, pc := s.pc, info := info } } ∧
      (4094 < s.pc.toNat ∧ c = .fetchOutOfRange ∧ info = s.pc ∨
        s.pc.toNat ≤ 4094 ∧ fatalCondition (decode s.fetchWord) s = some (c, info))

/-- R231 and R232: the fatal conditions, complete, with codes, causes and infos: a fetch above 4094 is
`FetchOutOfRange(pc)`; below, the cycle is rejected exactly when the table of R231 says so for the fetched instruction,
and is completed otherwise.  The table is the spec's own (decisions D2, D5, D6, D7). -/
def Obligations.FatalConditionsAreExactlyTheTable : Prop :=
  (FaultCause.none.code = 0 ∧ FaultCause.fetchOutOfRange.code = 1 ∧ FaultCause.dataAddressOutOfRange.code = 2 ∧
    FaultCause.stackOverflow.code = 3 ∧ FaultCause.stackUnderflow.code = 4 ∧
    FaultCause.keypadIndexOutOfRange.code = 5) ∧
  ∀ s : State, s.Running →
    (4094 < s.pc.toNat → step s = .next { s with latch := ⟨true, .fetchOutOfRange, s.pc, s.pc⟩ }) ∧
    (s.pc.toNat ≤ 4094 →
      (∀ c info, fatalCondition (decode s.fetchWord) s = some (c, info) →
        step s = .next { s with latch := ⟨true, c, s.pc, info⟩ }) ∧
      (fatalCondition (decode s.fetchWord) s = none → ∃ t, step s = .next t ∧ t.latch = s.latch))

/-- R238 (marked derived in the spec): every state has a step and every word a meaning: no step and no instruction ever ends in a fault outcome or a
refusal. -/
def Obligations.EveryStateHasAStep : Prop :=
  (∀ s : State, ∃ t, step s = .next t) ∧ ∀ (i : Instr) (s : State), ∃ t, exec i s = .next t

/-! ### Who may write what (R107 and the rules of each element) -/

/-- R107 (the spec's own decision D13, the frame rule): no handler but 00E0 and Dxyn writes `video`. -/
def Obligations.OnlyDisplayInstructionsWriteVideo : Prop :=
  ∀ (i : Instr) (s t : State), (∀ ign, i ≠ .cls ign) → (∀ x y n, i ≠ .drw x y n) → exec i s = .next t →
    t.video = s.video

/-- R107 (decision D13): no handler but Fx33 and Fx55 writes main memory: every byte reads as before. -/
def Obligations.OnlyTheTwoStoresWriteMemory : Prop :=
  ∀ (i : Instr) (s t : State), (∀ x, i ≠ .ldB x) → (∀ x, i ≠ .storeRegs x) → exec i s = .next t →
    t.memory = s.memory ∧ ∀ a : Nat, Memory.read t.memory a = Memory.read s.memory a

/-- R28: no instruction but 2nnn and 00EE reaches the stack or `sp`, and 00EE erases no slot. -/
def Obligations.OnlyCallAndRetReachTheStack : Prop :=
  ∀ (i : Instr) (s t : State), exec i s = .next t → (∀ nnn, i ≠ .call nnn) →
    t.stack = s.stack ∧ ((∀ ign, i ≠ .ret ign) → t.sp = s.sp)

/-- R27: an instruction that is none of the six flag writers and does not name VF as a destination leaves VF alone. -/
def Obligations.OnlyFlagWritersTouchVfUnnamed : Prop :=
  ∀ (i : Instr) (s t : State), writesFlag i = false → namesVf i = false → exec i s = .next t → t.reg vf = s.reg vf

/-- R25: a completed instruction that is none of the control transfers leaves `pc` at the next instruction. -/
def Obligations.PcMovesByTwoWithoutATransfer : Prop :=
  ∀ (i : Instr) (s t : State), s.Running → transfersControl i = false → exec i s = .next t → t.Running →
    t.pc = s.pc + 2

/-- R26: `index` is written by Annn, Fx1E and Fx29 alone; the memory instructions leave it. -/
def Obligations.OnlyThreeInstructionsWriteIndex : Prop :=
  ∀ (i : Instr) (s t : State), (∀ nnn, i ≠ .ldI nnn) → (∀ x, i ≠ .addI x) → (∀ x, i ≠ .ldF x) → exec i s = .next t →
    t.index = s.index

/-- R31: no cycle writes the keypad. -/
def Obligations.NoCycleWritesTheKeypad : Prop :=
  ∀ s t : State, step s = .next t → t.keypad = s.keypad

/-- R152: an execution that is not Cxkk consumes no draw. -/
def Obligations.OnlyRndConsumesADraw : Prop :=
  ∀ (i : Instr) (s t : State), (∀ x kk, i ≠ .rnd x kk) → exec i s = .next t →
    t.draws = s.draws ∧ t.drawCount = s.drawCount

/-! ### Encoding (spec/30_encoding.md) -/

/-- R70 to R79, decode after encode: the bytes of every well-formed instruction, with any bytes after them, decode to it
and leave those bytes.  The ignored fields come back because `Instr` keeps them, the model's choice (log 8). -/
def Obligations.DecodeInvertsEncode : Prop :=
  ∀ (i : Instr) (rest : List Byte), i.wellFormed = true → decodeBytes (encodeBytes i ++ rest) = .ok (i, rest)

/-- Encode after decode: every one of the 65536 words is the encoding of what it decodes to, which is well formed.  No rule
of the spec says so: alias words come back only because `Instr` keeps the bits a handler ignores, the model's choice
(log 8); the assembler of R82 would emit the canonical word. -/
def Obligations.EncodeInvertsDecode : Prop :=
  ∀ w : Word, encode (decode w) = w ∧ (decode w).wellFormed = true

/-- R77: the two forms of decoding agree on every word: the two-level dispatch of R73 and R74, and the mask and match
table of R76 with the no-op as default. -/
def Obligations.DispatchAgreesWithTheMaskTable : Prop :=
  ∀ w : Word, decode w = decodeByRows w

/-- R76: there are 34 rows, and no word is hit by two of them. -/
def Obligations.OpcodeRowsAreDisjoint : Prop :=
  opcodeRows.length = 34 ∧ ∀ w : Word, opcodeRows.Pairwise fun r q => ¬ (r.hits w = true ∧ q.hits w = true)

/-- R79 (marked derived in the spec): a word reaches the no-op handler exactly when one of (a) to (d) holds. -/
def Obligations.UnmappedWordsAreExactlyTheNops : Prop :=
  ∀ w : Word, decode w = .nop w ↔
    (w.toNat / 4096 = 0x0 ∧ w.toNat % 16 ≠ 0x0 ∧ w.toNat % 16 ≠ 0xE) ∨
    (w.toNat / 4096 = 0x8 ∧ (0x8 ≤ w.toNat % 16 ∧ w.toNat % 16 ≤ 0xD ∨ w.toNat % 16 = 0xF)) ∨
    (w.toNat / 4096 = 0xE ∧ w.toNat % 16 ≠ 0x1 ∧ w.toNat % 16 ≠ 0xE) ∨
    (w.toNat / 4096 = 0xF ∧ w.toNat % 256 ∉ [0x07, 0x0A, 0x15, 0x18, 0x1E, 0x29, 0x33, 0x55, 0x65])

/-- R84 (marked derived in the spec): the encoding examples, as words, with the fields of 0xD125. -/
def Obligations.EncodingExamplesDecode : Prop :=
  decodeTableWord 16 0x1204 = some (.jp 0x204) ∧ decodeTableWord 16 0x6105 = some (.ldByte 1 5) ∧
  decodeTableWord 16 0x8014 = some (.addReg 0 1) ∧ decodeTableWord 16 0x3100 = some (.seByte 1 0) ∧
  decodeTableWord 16 0xD125 = some (.drw 1 2 5) ∧ decodeTableWord 16 0xF265 = some (.loadRegs 2) ∧
  decodeTableWord 16 0xE29E = some (.skp 2 9) ∧ decodeTableWord 16 0xF333 = some (.ldB 3) ∧
  encodeBytes (.jp 0x204) = [0x12, 0x04] ∧ fieldKK 0xD125 = 0x25 ∧ fieldNNN 0xD125 = 0x125

/-- R78 (the spec's own decision D19): every word executes exactly as the canonical word with the same operand fields,
and the words that are not canonical are exactly the alias classes of the table. -/
def Obligations.AliasWordsActAsCanonical : Prop :=
  (∀ (w : Word) (s : State), exec (decode (encode (decode w).canonical)) s = exec (decode w) s) ∧
  ∀ w : Word, encode (decode w).canonical ≠ w ↔
    (w.toNat / 4096 = 0x0 ∧ (w.toNat % 16 = 0x0 ∨ w.toNat % 16 = 0xE) ∧ w.toNat / 16 % 256 ≠ 0x0E) ∨
    ((w.toNat / 4096 = 0x5 ∨ w.toNat / 4096 = 0x9) ∧ w.toNat % 16 ≠ 0x0) ∨
    (w.toNat / 4096 = 0xE ∧ w.toNat % 16 = 0xE ∧ w.toNat / 16 % 16 ≠ 0x9) ∨
    (w.toNat / 4096 = 0xE ∧ w.toNat % 16 = 0x1 ∧ w.toNat / 16 % 16 ≠ 0xA)

/-! ### Reset, the host and the invariant (spec/10_state.md, spec/70_reset_and_hazards.md) -/

/-- R39, R36 and R260: the state after reset, and after reset applied in any state, of a core with any `FONT`; the fixed
`State.reset` is the one for the default `FONT` (D17, log 3) (that it also clears `keypad` and the latch,
and can be applied again, is the spec's own decision D24; the two draw fields are the model's, log 2). -/
def Obligations.ResetValues : Prop :=
  State.reset = State.resetWith Config.defaultFont ∧
  ∀ (font : Config.Font) (s : State), s = State.resetWith font ∨ (∃ u : State, s = u.applyReset font) →
    (∀ r : Reg, s.reg r = 0) ∧ s.pc = 0x200 ∧ s.index = 0 ∧ (∀ i : Fin 16, s.stack[i] = 0) ∧ s.sp = 0 ∧
    s.delayTimer = 0 ∧ s.soundTimer = 0 ∧ s.opcode = 0 ∧ (∀ k : Nat, s.keypad.getLsbD k = false) ∧
    (∀ px py, pixel s.video px py = false) ∧ s.latch = ⟨false, .none, 0, 0⟩ ∧
    (∀ a : Nat, a < 4096 → Memory.read s.memory a =
      if h : 0x50 ≤ a ∧ a ≤ 0x9F then font[a - 0x50]'(by simp; omega) else 0)

/-- R264: a ROM load copies the bytes verbatim from 0x200 on, at most 3584 of them, and changes nothing else.
That a load comes only directly after reset is the host's duty (decision D21, log 11). -/
def Obligations.RomLoadCopiesVerbatim : Prop :=
  ∀ (rom : List Byte) (s : State), Memory.wf s.memory = true → ∃ m : Memory,
    s.loadRom rom = { s with memory := m } ∧
    (∀ (i : Nat) (h : i < rom.length), i < 3584 → Memory.read m (0x200 + i) = rom[i]) ∧
    ∀ a : Nat, a < 0x200 ∨ 0x200 + min rom.length 3584 ≤ a → Memory.read m a = Memory.read s.memory a

/-- R32 and R276 (the port is the spec's own decision D1): the framebuffer read port shows 0xFFFFFFFF for a set pixel and 0 for a clear one, the pixel (px, py) at linear
index py * 64 + px. -/
def Obligations.FramebufferShowsThePixels : Prop :=
  ∀ (s : State) (px : Fin 64) (py : Fin 32),
    s.vidData (BitVec.ofNat 11 (py.val * 64 + px.val)) = if pixel s.video px py = true then 0xFFFFFFFF#32 else 0#32

/-- A word placed where the next step fetches is the one that step runs, in every state with a canonical memory (the
model's own `withFetchWord`, log 6). -/
def Obligations.PlacedWordRunsNext : Prop :=
  ∀ (s t : State) (w : Word), Memory.wf s.memory = true →
    exec (decode w) (s.withFetchWord 16 w.toNat) = .next t → t.Running →
    ∃ u, step (s.withFetchWord 16 w.toNat) = .next u ∧ u.opcode = w ∧ u.pc = t.pc ∧ u.v = t.v ∧ u.memory = t.memory

/-- The state after reset meets the invariant, whatever the `FONT` of the core. -/
def Obligations.ResetMeetsInv : Prop := State.reset.Inv ∧ ∀ font : Config.Font, (State.resetWith font).Inv

/-- R40 with R25, R28 and R34: every step keeps the invariant: memory in canonical form, the latch clear while the core
runs and naming one of the five causes and the still standing `pc` once halted, `pc` at most 0x10FE, every return
address at most 4096. -/
def Obligations.StepKeepsInv : Prop :=
  ∀ s t : State, s.Inv → step s = .next t → t.Inv

/-- Every move of the host keeps the invariant, whatever the `FONT`: reset, ROM load, and a cycle with any keys and any
draw (the type of moves is the model's reading of R266, log 11). -/
def Obligations.HostMovesKeepInv : Prop :=
  ∀ (font : Config.Font) (s t : State) (h : HostMove), s.Inv → s.move font h = .next t → t.Inv
end

