-- ==== Sys2Proof/Laws/Decode.lean ====
section
/-! SUPPORT. The fields of a word and the packing of words, in arithmetic; what the dispatch gives for each key. -/

namespace Sys2Proof

/-! ### Fields as numbers (R8: a bit slice is an unsigned value) -/

theorem topNibble_val (w : Word) : (topNibble w).val = w.toNat / 4096 := by
  have := w.isLt
  show (w.extractLsb' 12 4).toNat = _
  simp only [BitVec.extractLsb'_toNat, Nat.shiftRight_eq_div_pow]
  omega

theorem fieldX_val (w : Word) : (fieldX w).val = w.toNat / 256 % 16 := by
  show (w.extractLsb' 8 4).toNat = _
  simp only [BitVec.extractLsb'_toNat, Nat.shiftRight_eq_div_pow]

theorem fieldY_val (w : Word) : (fieldY w).val = w.toNat / 16 % 16 := by
  show (w.extractLsb' 4 4).toNat = _
  simp only [BitVec.extractLsb'_toNat, Nat.shiftRight_eq_div_pow]

theorem fieldN_val (w : Word) : (fieldN w).val = w.toNat % 16 := by
  show (w.extractLsb' 0 4).toNat = _
  simp only [BitVec.extractLsb'_toNat, Nat.shiftRight_eq_div_pow]
  omega

theorem fieldKK_toNat (w : Word) : (fieldKK w).toNat = w.toNat % 256 := by
  simp only [fieldKK, BitVec.extractLsb'_toNat, Nat.shiftRight_eq_div_pow]
  omega

theorem fieldNNN_toNat (w : Word) : (fieldNNN w).toNat = w.toNat % 4096 := by
  simp only [fieldNNN, BitVec.extractLsb'_toNat, Nat.shiftRight_eq_div_pow]
  omega

theorem fieldIgn_toNat (w : Word) : (fieldIgn w).toNat = w.toNat / 16 % 256 := by
  simp only [fieldIgn, BitVec.extractLsb'_toNat, Nat.shiftRight_eq_div_pow]

/-! ### Packed words as numbers -/

theorem toNat_append_eq {m n : Nat} (a : BitVec m) (b : BitVec n) : (a ++ b).toNat = a.toNat * 2 ^ n + b.toNat := by
  rw [BitVec.toNat_append, ← Nat.shiftLeft_add_eq_or_of_lt b.isLt, Nat.shiftLeft_eq]

theorem packDigits_toNat (t x y n : Nibble) :
    (packDigits t x y n).toNat = t.val * 4096 + x.val * 256 + y.val * 16 + n.val := by
  unfold packDigits
  simp only [toNat_append_eq, BitVec.toNat_ofFin]
  omega

theorem packXK_toNat (t x : Nibble) (kk : Byte) :
    (packXK t x kk).toNat = t.val * 4096 + x.val * 256 + kk.toNat := by
  unfold packXK
  simp only [toNat_append_eq, BitVec.toNat_ofFin]
  omega

theorem packA_toNat (t : Nibble) (nnn : BitVec 12) : (packA t nnn).toNat = t.val * 4096 + nnn.toNat := by
  unfold packA
  simp only [toNat_append_eq, BitVec.toNat_ofFin]
  omega

theorem packZ_toNat (ign : Byte) (key : Nibble) : (packZ ign key).toNat = ign.toNat * 16 + key.val := by
  unfold packZ
  simp only [toNat_append_eq, BitVec.toNat_ofFin]
  simp

/-! ### Fields of packed words -/

section
variable (t x y n : Nibble) (kk : Byte) (nnn : BitVec 12)

@[simp] theorem topNibble_packDigits : topNibble (packDigits t x y n) = t := by
  apply Fin.ext; rw [topNibble_val, packDigits_toNat]; omega
@[simp] theorem fieldX_packDigits : fieldX (packDigits t x y n) = x := by
  apply Fin.ext; rw [fieldX_val, packDigits_toNat]; omega
@[simp] theorem fieldY_packDigits : fieldY (packDigits t x y n) = y := by
  apply Fin.ext; rw [fieldY_val, packDigits_toNat]; omega
@[simp] theorem fieldN_packDigits : fieldN (packDigits t x y n) = n := by
  apply Fin.ext; rw [fieldN_val, packDigits_toNat]; omega

@[simp] theorem topNibble_packXK : topNibble (packXK t x kk) = t := by
  have := kk.isLt; apply Fin.ext; rw [topNibble_val, packXK_toNat]; omega
@[simp] theorem fieldX_packXK : fieldX (packXK t x kk) = x := by
  have := kk.isLt; apply Fin.ext; rw [fieldX_val, packXK_toNat]; omega
@[simp] theorem fieldKK_packXK : fieldKK (packXK t x kk) = kk := by
  have := kk.isLt; apply BitVec.eq_of_toNat_eq; rw [fieldKK_toNat, packXK_toNat]; omega

@[simp] theorem topNibble_packA : topNibble (packA t nnn) = t := by
  have := nnn.isLt; apply Fin.ext; rw [topNibble_val, packA_toNat]; omega
@[simp] theorem fieldNNN_packA : fieldNNN (packA t nnn) = nnn := by
  have := nnn.isLt; apply BitVec.eq_of_toNat_eq; rw [fieldNNN_toNat, packA_toNat]; omega

@[simp] theorem topNibble_packZ : topNibble (packZ kk n) = 0 := by
  have := kk.isLt; apply Fin.ext; rw [topNibble_val, packZ_toNat]; simp; omega
@[simp] theorem fieldN_packZ : fieldN (packZ kk n) = n := by
  have := kk.isLt; apply Fin.ext; rw [fieldN_val, packZ_toNat]; omega
@[simp] theorem fieldIgn_packZ : fieldIgn (packZ kk n) = kk := by
  have := kk.isLt; apply BitVec.eq_of_toNat_eq; rw [fieldIgn_toNat, packZ_toNat]; omega
end

/-! ### Every word is its digits; masks keep digits (R76) -/

theorem eq_packDigits (w : Word) : w = packDigits (topNibble w) (fieldX w) (fieldY w) (fieldN w) := by
  apply BitVec.eq_of_toNat_eq
  rw [packDigits_toNat, topNibble_val, fieldX_val, fieldY_val, fieldN_val]
  omega

theorem eq_packXK (w : Word) : w = packXK (topNibble w) (fieldX w) (fieldKK w) := by
  apply BitVec.eq_of_toNat_eq
  rw [packXK_toNat, topNibble_val, fieldX_val, fieldKK_toNat]
  omega

theorem eq_packA (w : Word) : w = packA (topNibble w) (fieldNNN w) := by
  apply BitVec.eq_of_toNat_eq
  rw [packA_toNat, topNibble_val, fieldNNN_toNat]
  omega

theorem eq_packZ {w : Word} (h : topNibble w = 0) : w = packZ (fieldIgn w) (fieldN w) := by
  apply BitVec.eq_of_toNat_eq
  have h' := topNibble_val w
  rw [h] at h'
  simp at h'
  rw [packZ_toNat, fieldIgn_toNat, fieldN_val]
  omega

theorem and_fifteen (a : BitVec 4) : a &&& 0xF#4 = a := by
  have : (0xF#4) = BitVec.allOnes 4 := by decide
  rw [this, BitVec.and_allOnes]

/-- The mask of a first-level row keeps the top nibble. -/
theorem mask_top (w : Word) : w &&& 0xF000#16 = packDigits (topNibble w) 0 0 0 := by
  have hm : (0xF000#16 : Word) = (0xF#4 ++ 0#4) ++ (0#4 ++ 0#4) := by decide
  conv_lhs => rw [eq_packDigits w, hm]
  unfold packDigits
  rw [BitVec.and_append, BitVec.and_append, BitVec.and_append, and_fifteen]
  simp

/-- The mask of a row with a low-nibble key keeps the top and the low nibble. -/
theorem mask_top_low (w : Word) : w &&& 0xF00F#16 = packDigits (topNibble w) 0 0 (fieldN w) := by
  have hm : (0xF00F#16 : Word) = (0xF#4 ++ 0#4) ++ (0#4 ++ 0xF#4) := by decide
  conv_lhs => rw [eq_packDigits w, hm]
  unfold packDigits
  rw [BitVec.and_append, BitVec.and_append, BitVec.and_append, and_fifteen, and_fifteen]
  simp

/-- The mask of a row with a low-byte key keeps the top nibble and the low byte. -/
theorem mask_top_byte (w : Word) : w &&& 0xF0FF#16 = packXK (topNibble w) 0 (fieldKK w) := by
  have hm : (0xF0FF#16 : Word) = (0xF#4 ++ 0#4) ++ BitVec.allOnes 8 := by decide
  conv_lhs => rw [eq_packXK w, hm]
  unfold packXK
  rw [BitVec.and_append, BitVec.and_append, and_fifteen, BitVec.and_allOnes]
  simp

/-- What the mask of a first-level row says of the digits. -/
theorem mask_top_eq {w p : Word} (h : w &&& 0xF000#16 = p) : (topNibble w).val = p.toNat / 4096 := by
  rw [mask_top] at h
  rw [← h, packDigits_toNat]
  simp

theorem mask_top_low_eq {w p : Word} (h : w &&& 0xF00F#16 = p) :
    (topNibble w).val = p.toNat / 4096 ∧ (fieldN w).val = p.toNat % 16 := by
  rw [mask_top_low] at h
  rw [← h, packDigits_toNat]
  simp
  omega

theorem mask_top_byte_eq {w p : Word} (h : w &&& 0xF0FF#16 = p) :
    (topNibble w).val = p.toNat / 4096 ∧ (fieldKK w).toNat = p.toNat % 256 := by
  have := (fieldKK w).isLt
  rw [mask_top_byte] at h
  rw [← h, packXK_toNat]
  simp
  omega

/-! ### The dispatch under a mask: each row of R76 reaches its handler -/

section
variable {w : Word}

theorem decode_cls (h : w &&& 0xF00F#16 = 0x0000) : decode w = .cls (fieldIgn w) := by
  obtain ⟨h1, h2⟩ := mask_top_low_eq h
  simp [decode, decode0, h1, h2]
theorem decode_ret (h : w &&& 0xF00F#16 = 0x000E) : decode w = .ret (fieldIgn w) := by
  obtain ⟨h1, h2⟩ := mask_top_low_eq h
  simp [decode, decode0, h1, h2]
theorem decode_jp (h : w &&& 0xF000#16 = 0x1000) : decode w = .jp (fieldNNN w) := by
  simp [decode, mask_top_eq h]
theorem decode_call (h : w &&& 0xF000#16 = 0x2000) : decode w = .call (fieldNNN w) := by
  simp [decode, mask_top_eq h]
theorem decode_seByte (h : w &&& 0xF000#16 = 0x3000) : decode w = .seByte (fieldX w) (fieldKK w) := by
  simp [decode, mask_top_eq h]
theorem decode_sneByte (h : w &&& 0xF000#16 = 0x4000) : decode w = .sneByte (fieldX w) (fieldKK w) := by
  simp [decode, mask_top_eq h]
theorem decode_seReg (h : w &&& 0xF000#16 = 0x5000) : decode w = .seReg (fieldX w) (fieldY w) (fieldN w) := by
  simp [decode, mask_top_eq h]
theorem decode_ldByte (h : w &&& 0xF000#16 = 0x6000) : decode w = .ldByte (fieldX w) (fieldKK w) := by
  simp [decode, mask_top_eq h]
theorem decode_addByte (h : w &&& 0xF000#16 = 0x7000) : decode w = .addByte (fieldX w) (fieldKK w) := by
  simp [decode, mask_top_eq h]
theorem decode_sneReg (h : w &&& 0xF000#16 = 0x9000) : decode w = .sneReg (fieldX w) (fieldY w) (fieldN w) := by
  simp [decode, mask_top_eq h]
theorem decode_ldI (h : w &&& 0xF000#16 = 0xA000) : decode w = .ldI (fieldNNN w) := by
  simp [decode, mask_top_eq h]
theorem decode_jpV0 (h : w &&& 0xF000#16 = 0xB000) : decode w = .jpV0 (fieldNNN w) := by
  simp [decode, mask_top_eq h]
theorem decode_rnd (h : w &&& 0xF000#16 = 0xC000) : decode w = .rnd (fieldX w) (fieldKK w) := by
  simp [decode, mask_top_eq h]
theorem decode_drw (h : w &&& 0xF000#16 = 0xD000) : decode w = .drw (fieldX w) (fieldY w) (fieldN w) := by
  simp [decode, mask_top_eq h]
theorem decode_ldReg (h : w &&& 0xF00F#16 = 0x8000) : decode w = .ldReg (fieldX w) (fieldY w) := by
  obtain ⟨h1, h2⟩ := mask_top_low_eq h
  simp [decode, decode8, h1, h2]
theorem decode_orReg (h : w &&& 0xF00F#16 = 0x8001) : decode w = .orReg (fieldX w) (fieldY w) := by
  obtain ⟨h1, h2⟩ := mask_top_low_eq h
  simp [decode, decode8, h1, h2]
theorem decode_andReg (h : w &&& 0xF00F#16 = 0x8002) : decode w = .andReg (fieldX w) (fieldY w) := by
  obtain ⟨h1, h2⟩ := mask_top_low_eq h
  simp [decode, decode8, h1, h2]
theorem decode_xorReg (h : w &&& 0xF00F#16 = 0x8003) : decode w = .xorReg (fieldX w) (fieldY w) := by
  obtain ⟨h1, h2⟩ := mask_top_low_eq h
  simp [decode, decode8, h1, h2]
theorem decode_addReg (h : w &&& 0xF00F#16 = 0x8004) : decode w = .addReg (fieldX w) (fieldY w) := by
  obtain ⟨h1, h2⟩ := mask_top_low_eq h
  simp [decode, decode8, h1, h2]
theorem decode_subReg (h : w &&& 0xF00F#16 = 0x8005) : decode w = .subReg (fieldX w) (fieldY w) := by
  obtain ⟨h1, h2⟩ := mask_top_low_eq h
  simp [decode, decode8, h1, h2]
theorem decode_shr (h : w &&& 0xF00F#16 = 0x8006) : decode w = .shr (fieldX w) (fieldY w) := by
  obtain ⟨h1, h2⟩ := mask_top_low_eq h
  simp [decode, decode8, h1, h2]
theorem decode_subnReg (h : w &&& 0xF00F#16 = 0x8007) : decode w = .subnReg (fieldX w) (fieldY w) := by
  obtain ⟨h1, h2⟩ := mask_top_low_eq h
  simp [decode, decode8, h1, h2]
theorem decode_shl (h : w &&& 0xF00F#16 = 0x800E) : decode w = .shl (fieldX w) (fieldY w) := by
  obtain ⟨h1, h2⟩ := mask_top_low_eq h
  simp [decode, decode8, h1, h2]
theorem decode_skp (h : w &&& 0xF00F#16 = 0xE00E) : decode w = .skp (fieldX w) (fieldY w) := by
  obtain ⟨h1, h2⟩ := mask_top_low_eq h
  simp [decode, decodeE, h1, h2]
theorem decode_sknp (h : w &&& 0xF00F#16 = 0xE001) : decode w = .sknp (fieldX w) (fieldY w) := by
  obtain ⟨h1, h2⟩ := mask_top_low_eq h
  simp [decode, decodeE, h1, h2]
theorem decode_ldVxDt (h : w &&& 0xF0FF#16 = 0xF007) : decode w = .ldVxDt (fieldX w) := by
  obtain ⟨h1, h2⟩ := mask_top_byte_eq h
  simp [decode, decodeF, h1, h2]
theorem decode_ldVxK (h : w &&& 0xF0FF#16 = 0xF00A) : decode w = .ldVxK (fieldX w) := by
  obtain ⟨h1, h2⟩ := mask_top_byte_eq h
  simp [decode, decodeF, h1, h2]
theorem decode_ldDtVx (h : w &&& 0xF0FF#16 = 0xF015) : decode w = .ldDtVx (fieldX w) := by
  obtain ⟨h1, h2⟩ := mask_top_byte_eq h
  simp [decode, decodeF, h1, h2]
theorem decode_ldStVx (h : w &&& 0xF0FF#16 = 0xF018) : decode w = .ldStVx (fieldX w) := by
  obtain ⟨h1, h2⟩ := mask_top_byte_eq h
  simp [decode, decodeF, h1, h2]
theorem decode_addI (h : w &&& 0xF0FF#16 = 0xF01E) : decode w = .addI (fieldX w) := by
  obtain ⟨h1, h2⟩ := mask_top_byte_eq h
  simp [decode, decodeF, h1, h2]
theorem decode_ldF (h : w &&& 0xF0FF#16 = 0xF029) : decode w = .ldF (fieldX w) := by
  obtain ⟨h1, h2⟩ := mask_top_byte_eq h
  simp [decode, decodeF, h1, h2]
theorem decode_ldB (h : w &&& 0xF0FF#16 = 0xF033) : decode w = .ldB (fieldX w) := by
  obtain ⟨h1, h2⟩ := mask_top_byte_eq h
  simp [decode, decodeF, h1, h2]
theorem decode_storeRegs (h : w &&& 0xF0FF#16 = 0xF055) : decode w = .storeRegs (fieldX w) := by
  obtain ⟨h1, h2⟩ := mask_top_byte_eq h
  simp [decode, decodeF, h1, h2]
theorem decode_loadRegs (h : w &&& 0xF0FF#16 = 0xF065) : decode w = .loadRegs (fieldX w) := by
  obtain ⟨h1, h2⟩ := mask_top_byte_eq h
  simp [decode, decodeF, h1, h2]
end

end Sys2Proof
end

