-- ==== Sys2Proof/Laws/Memory.lean ====
section
/-! SUPPORT. The laws of main memory: read after write, the frame of a write, the canonical form and its uniqueness, and
the same for runs of bytes. -/

namespace Sys2Proof.Machine

/-! ### Reading -/

@[simp] theorem Memory.read_nil (a : Nat) : Memory.read [] a = resetByte a := rfl

@[simp] theorem Memory.read_put_same (m : Memory) (a : Nat) (b : Byte) (h : Memory.read m a = resetByte a) :
    Memory.read (Memory.put a b m) a = b := by
  unfold Memory.put
  split
  · rename_i e; rw [h, e]
  · simp [Memory.read]

@[simp] theorem Memory.read_put_other (m : Memory) {a k : Nat} (b : Byte) (h : k ≠ a) :
    Memory.read (Memory.put a b m) k = Memory.read m k := by
  unfold Memory.put
  split
  · rfl
  · simp [Memory.read, h.symm]

/-- An address below every cell reads as reset left it. -/
theorem Memory.read_of_wfFrom {lo : Nat} {m : Memory} (h : Memory.wfFrom lo m = true) {a : Nat} (ha : a < lo) :
    Memory.read m a = resetByte a := by
  induction m generalizing lo with
  | nil => rfl
  | cons c m ih =>
    obtain ⟨k, b⟩ := c
    simp only [Memory.wfFrom, Bool.and_eq_true, decide_eq_true_eq] at h
    obtain ⟨⟨⟨hk, -⟩, -⟩, hm⟩ := h
    have : k ≠ a := by omega
    simp only [Memory.read, this, if_false]
    exact ih hm (by omega)

/-- A later bound on the cells is a weaker one. -/
theorem Memory.wfFrom_mono {lo lo' : Nat} {m : Memory} (h : Memory.wfFrom lo m = true) (hl : lo' ≤ lo) :
    Memory.wfFrom lo' m = true := by
  cases m with
  | nil => rfl
  | cons c m =>
    obtain ⟨k, b⟩ := c
    simp only [Memory.wfFrom, Bool.and_eq_true, decide_eq_true_eq] at h ⊢
    exact ⟨⟨⟨by omega, h.1.1.2⟩, h.1.2⟩, h.2⟩

/-! ### One write -/

theorem Memory.wfFrom_put {lo a : Nat} {m : Memory} (h : Memory.wfFrom (a + 1) m = true) (b : Byte)
    (hl : lo ≤ a) (ha : a < 4096) : Memory.wfFrom lo (Memory.put a b m) = true := by
  unfold Memory.put
  split
  · exact Memory.wfFrom_mono h (by omega)
  · rename_i hb
    simp [Memory.wfFrom, hl, ha, hb, h]

theorem Memory.wfFrom_insert {lo a : Nat} {m : Memory} (h : Memory.wfFrom lo m = true) (b : Byte)
    (hl : lo ≤ a) (ha : a < 4096) : Memory.wfFrom lo (Memory.insert m a b) = true := by
  induction m generalizing lo with
  | nil => exact Memory.wfFrom_put rfl b hl ha
  | cons c m ih =>
    obtain ⟨k, d⟩ := c
    have h0 := h
    simp only [Memory.wfFrom, Bool.and_eq_true, decide_eq_true_eq] at h
    obtain ⟨⟨⟨hk, hk'⟩, hd⟩, hm⟩ := h
    unfold Memory.insert
    split
    · rename_i hka
      simp only [Memory.wfFrom, Bool.and_eq_true, decide_eq_true_eq]
      exact ⟨⟨⟨hk, hk'⟩, hd⟩, ih hm (by omega)⟩
    · split
      · rename_i hka
        subst hka
        exact Memory.wfFrom_put hm b hl ha
      · refine Memory.wfFrom_put ?_ b hl ha
        simp only [Memory.wfFrom, Bool.and_eq_true, decide_eq_true_eq]
        exact ⟨⟨⟨by omega, hk'⟩, hd⟩, hm⟩

/-- A write keeps the canonical form. -/
theorem Memory.wf_write {m : Memory} (h : Memory.wf m = true) (a : Nat) (b : Byte) :
    Memory.wf (Memory.write m a b) = true := by
  unfold Memory.write
  split
  · exact Memory.wfFrom_insert h b (by omega) (by assumption)
  · exact h

theorem Memory.read_insert_other (m : Memory) {a k : Nat} (b : Byte) (h : k ≠ a) :
    Memory.read (Memory.insert m a b) k = Memory.read m k := by
  induction m with
  | nil => exact Memory.read_put_other [] b h
  | cons c m ih =>
    obtain ⟨j, d⟩ := c
    unfold Memory.insert
    split
    · simp only [Memory.read, ih]
    · split
      · rename_i hj
        subst hj
        rw [Memory.read_put_other m b h]
        simp [Memory.read, h.symm]
      · exact Memory.read_put_other _ b h

/-- A write changes exactly the addressed byte (R54). -/
theorem Memory.read_write_other (m : Memory) {a k : Nat} (b : Byte) (h : k ≠ a) :
    Memory.read (Memory.write m a b) k = Memory.read m k := by
  unfold Memory.write
  split
  · exact Memory.read_insert_other m b h
  · rfl

theorem Memory.read_insert_same {lo : Nat} {m : Memory} (h : Memory.wfFrom lo m = true) (a : Nat) (b : Byte) :
    Memory.read (Memory.insert m a b) a = b := by
  induction m generalizing lo with
  | nil => exact Memory.read_put_same [] a b rfl
  | cons c m ih =>
    obtain ⟨k, d⟩ := c
    simp only [Memory.wfFrom, Bool.and_eq_true, decide_eq_true_eq] at h
    obtain ⟨⟨⟨hk, hk'⟩, hd⟩, hm⟩ := h
    unfold Memory.insert
    split
    · rename_i hka
      have : k ≠ a := by omega
      simp [Memory.read, this, ih hm]
    · split
      · rename_i hka
        subst hka
        exact Memory.read_put_same m k b (Memory.read_of_wfFrom hm (by omega))
      · refine Memory.read_put_same _ a b ?_
        have : k ≠ a := by omega
        simp only [Memory.read, this, if_false]
        exact Memory.read_of_wfFrom hm (by omega)

/-- A read returns the byte last written there (R54). -/
theorem Memory.read_write_same {m : Memory} (h : Memory.wf m = true) {a : Nat} (ha : a < 4096) (b : Byte) :
    Memory.read (Memory.write m a b) a = b := by
  simp only [Memory.write, Config.memSize, ha, if_true]
  exact Memory.read_insert_same h a b

/-! ### Runs of bytes -/

/-- A run of writes keeps the canonical form. -/
theorem Memory.wf_writeBytes {m : Memory} (h : Memory.wf m = true) (base : Nat) (bs : List Byte) :
    Memory.wf (Memory.writeBytes m base bs) = true := by
  induction bs generalizing m base with
  | nil => exact h
  | cons b bs ih => exact ih (Memory.wf_write h base b) (base + 1)

/-- A run of writes changes no byte outside it. -/
theorem Memory.read_writeBytes_outside (m : Memory) (base : Nat) (bs : List Byte) {k : Nat}
    (h : k < base ∨ base + bs.length ≤ k) :
    Memory.read (Memory.writeBytes m base bs) k = Memory.read m k := by
  induction bs generalizing m base with
  | nil => rfl
  | cons b bs ih =>
    simp only [List.length_cons] at h
    unfold Memory.writeBytes
    rw [ih _ _ (by omega)]
    exact Memory.read_write_other m b (by omega)

/-- A run of writes inside memory stores each of its bytes. -/
theorem Memory.read_writeBytes_inside {m : Memory} (hm : Memory.wf m = true) (base : Nat) (bs : List Byte)
    (hb : base + bs.length ≤ 4096) {i : Nat} (h : i < bs.length) :
    Memory.read (Memory.writeBytes m base bs) (base + i) = bs[i] := by
  induction bs generalizing m base i with
  | nil => simp at h
  | cons b bs ih =>
    simp only [List.length_cons] at hb h
    unfold Memory.writeBytes
    cases i with
    | zero =>
      rw [Memory.read_writeBytes_outside _ _ _ (by omega)]
      exact Memory.read_write_same hm (by omega) b
    | succ i =>
      have := ih (Memory.wf_write hm base b) (base + 1) (by omega) (i := i) (by omega)
      rw [show base + (i + 1) = base + 1 + i by omega, this]
      rfl

/-! ### The canonical form is unique -/

theorem Memory.ext_from {lo : Nat} {m n : Memory} (hm : Memory.wfFrom lo m = true) (hn : Memory.wfFrom lo n = true)
    (h : ∀ a, Memory.read m a = Memory.read n a) : m = n := by
  induction m generalizing lo n with
  | nil =>
    cases n with
    | nil => rfl
    | cons c n =>
      obtain ⟨k, b⟩ := c
      simp only [Memory.wfFrom, Bool.and_eq_true, bne_iff_ne] at hn
      have := h k
      simp [Memory.read] at this
      exact absurd this.symm hn.1.2
  | cons c m ih =>
    obtain ⟨k, b⟩ := c
    cases n with
    | nil =>
      simp only [Memory.wfFrom, Bool.and_eq_true, bne_iff_ne] at hm
      have := h k
      simp [Memory.read] at this
      exact absurd this hm.1.2
    | cons d n =>
      obtain ⟨j, e⟩ := d
      simp only [Memory.wfFrom, Bool.and_eq_true, decide_eq_true_eq, bne_iff_ne] at hm hn
      obtain ⟨⟨⟨hk, hk'⟩, hb⟩, hm'⟩ := hm
      obtain ⟨⟨⟨hj, hj'⟩, he⟩, hn'⟩ := hn
      have hkj : k = j := by
        rcases Nat.lt_trichotomy k j with hlt | heq | hgt
        · have := h k
          have hne : j ≠ k := by omega
          simp only [Memory.read, if_true, hne, if_false] at this
          rw [Memory.read_of_wfFrom hn' (by omega)] at this
          exact absurd this hb
        · exact heq
        · have := h j
          have hne : k ≠ j := by omega
          simp only [Memory.read, if_true, hne, if_false] at this
          rw [Memory.read_of_wfFrom hm' (by omega)] at this
          exact absurd this.symm he
      subst hkj
      have hbe : b = e := by have := h k; simpa [Memory.read] using this
      subst hbe
      have : m = n := by
        refine ih hm' hn' fun a => ?_
        by_cases ha : k = a
        · subst ha
          rw [Memory.read_of_wfFrom hm' (by omega), Memory.read_of_wfFrom hn' (by omega)]
        · have := h a
          simpa [Memory.read, ha] using this
      rw [this]

/-- Canonical memories that read alike are the same list. -/
theorem Memory.ext {m n : Memory} (hm : Memory.wf m = true) (hn : Memory.wf n = true)
    (h : ∀ a, Memory.read m a = Memory.read n a) : m = n := Memory.ext_from hm hn h

/-- The font is 80 bytes (R36). -/
theorem defaultFont_length : Config.defaultFont.toList.length = 80 := by simp

/-! ### The reset contents of a core with another `FONT` -/

/-- Writing a font over nothing gives the reset contents for that `FONT`. -/
theorem Memory.read_writeFont (font : Config.Font) (a : Nat) :
    Memory.read (Memory.writeBytes [] Config.fontBase font.toList) a = resetByteOf font a := by
  unfold resetByteOf
  split
  · rename_i h
    have := Memory.read_writeBytes_inside (m := []) rfl Config.fontBase font.toList (by simp)
      (i := a - Config.fontBase) (by simp at h ⊢; omega)
    rw [show Config.fontBase + (a - Config.fontBase) = a by omega] at this
    rw [this]
    simp
  · rename_i h
    rw [Memory.read_writeBytes_outside _ _ _ (by simp at h ⊢; omega)]
    simp only [Memory.read, resetByte, resetByteOf, dif_neg h]

/-- The default font lists nothing. -/
theorem Memory.writeFont_default : Memory.writeBytes [] Config.fontBase Config.defaultFont.toList = [] := by
  apply Memory.ext (Memory.wf_writeBytes rfl _ _) rfl
  intro a
  rw [Memory.read_writeFont]
  rfl

end Sys2Proof.Machine
end

