-- ==== Sys2Proof/Laws/State.lean ====
section
/-! SUPPORT. One lemma per field of State per update: what the update makes of the field.  No later proof unfolds a
record update. -/

namespace Sys2Proof.Machine

/-! ### `State.advance` -/

@[simp] theorem State.advance_v (s : State) : (s.advance).v = s.v := rfl
@[simp] theorem State.advance_index (s : State) : (s.advance).index = s.index := rfl
@[simp] theorem State.advance_pc (s : State) : (s.advance).pc = s.pc + 2 := rfl
@[simp] theorem State.advance_stack (s : State) : (s.advance).stack = s.stack := rfl
@[simp] theorem State.advance_sp (s : State) : (s.advance).sp = s.sp := rfl
@[simp] theorem State.advance_delayTimer (s : State) : (s.advance).delayTimer = s.delayTimer := rfl
@[simp] theorem State.advance_soundTimer (s : State) : (s.advance).soundTimer = s.soundTimer := rfl
@[simp] theorem State.advance_keypad (s : State) : (s.advance).keypad = s.keypad := rfl
@[simp] theorem State.advance_video (s : State) : (s.advance).video = s.video := rfl
@[simp] theorem State.advance_opcode (s : State) : (s.advance).opcode = s.opcode := rfl
@[simp] theorem State.advance_latch (s : State) : (s.advance).latch = s.latch := rfl
@[simp] theorem State.advance_memory (s : State) : (s.advance).memory = s.memory := rfl
@[simp] theorem State.advance_draws (s : State) : (s.advance).draws = s.draws := rfl
@[simp] theorem State.advance_drawCount (s : State) : (s.advance).drawCount = s.drawCount := rfl

/-! ### `State.jump` -/

@[simp] theorem State.jump_v (s : State) (w : Word) : (s.jump w).v = s.v := rfl
@[simp] theorem State.jump_index (s : State) (w : Word) : (s.jump w).index = s.index := rfl
@[simp] theorem State.jump_pc (s : State) (w : Word) : (s.jump w).pc = w := rfl
@[simp] theorem State.jump_stack (s : State) (w : Word) : (s.jump w).stack = s.stack := rfl
@[simp] theorem State.jump_sp (s : State) (w : Word) : (s.jump w).sp = s.sp := rfl
@[simp] theorem State.jump_delayTimer (s : State) (w : Word) : (s.jump w).delayTimer = s.delayTimer := rfl
@[simp] theorem State.jump_soundTimer (s : State) (w : Word) : (s.jump w).soundTimer = s.soundTimer := rfl
@[simp] theorem State.jump_keypad (s : State) (w : Word) : (s.jump w).keypad = s.keypad := rfl
@[simp] theorem State.jump_video (s : State) (w : Word) : (s.jump w).video = s.video := rfl
@[simp] theorem State.jump_opcode (s : State) (w : Word) : (s.jump w).opcode = s.opcode := rfl
@[simp] theorem State.jump_latch (s : State) (w : Word) : (s.jump w).latch = s.latch := rfl
@[simp] theorem State.jump_memory (s : State) (w : Word) : (s.jump w).memory = s.memory := rfl
@[simp] theorem State.jump_draws (s : State) (w : Word) : (s.jump w).draws = s.draws := rfl
@[simp] theorem State.jump_drawCount (s : State) (w : Word) : (s.jump w).drawCount = s.drawCount := rfl

/-! ### `State.setReg` -/

@[simp] theorem State.setReg_v (s : State) (r : Reg) (b : Byte) : (s.setReg r b).v = s.v.set r b := rfl
@[simp] theorem State.setReg_index (s : State) (r : Reg) (b : Byte) : (s.setReg r b).index = s.index := rfl
@[simp] theorem State.setReg_pc (s : State) (r : Reg) (b : Byte) : (s.setReg r b).pc = s.pc := rfl
@[simp] theorem State.setReg_stack (s : State) (r : Reg) (b : Byte) : (s.setReg r b).stack = s.stack := rfl
@[simp] theorem State.setReg_sp (s : State) (r : Reg) (b : Byte) : (s.setReg r b).sp = s.sp := rfl
@[simp] theorem State.setReg_delayTimer (s : State) (r : Reg) (b : Byte) : (s.setReg r b).delayTimer = s.delayTimer := rfl
@[simp] theorem State.setReg_soundTimer (s : State) (r : Reg) (b : Byte) : (s.setReg r b).soundTimer = s.soundTimer := rfl
@[simp] theorem State.setReg_keypad (s : State) (r : Reg) (b : Byte) : (s.setReg r b).keypad = s.keypad := rfl
@[simp] theorem State.setReg_video (s : State) (r : Reg) (b : Byte) : (s.setReg r b).video = s.video := rfl
@[simp] theorem State.setReg_opcode (s : State) (r : Reg) (b : Byte) : (s.setReg r b).opcode = s.opcode := rfl
@[simp] theorem State.setReg_latch (s : State) (r : Reg) (b : Byte) : (s.setReg r b).latch = s.latch := rfl
@[simp] theorem State.setReg_memory (s : State) (r : Reg) (b : Byte) : (s.setReg r b).memory = s.memory := rfl
@[simp] theorem State.setReg_draws (s : State) (r : Reg) (b : Byte) : (s.setReg r b).draws = s.draws := rfl
@[simp] theorem State.setReg_drawCount (s : State) (r : Reg) (b : Byte) : (s.setReg r b).drawCount = s.drawCount := rfl

/-! ### `State.setFlag` -/

@[simp] theorem State.setFlag_v (s : State) (b : Byte) : (s.setFlag b).v = s.v.set vf b := rfl
@[simp] theorem State.setFlag_index (s : State) (b : Byte) : (s.setFlag b).index = s.index := rfl
@[simp] theorem State.setFlag_pc (s : State) (b : Byte) : (s.setFlag b).pc = s.pc := rfl
@[simp] theorem State.setFlag_stack (s : State) (b : Byte) : (s.setFlag b).stack = s.stack := rfl
@[simp] theorem State.setFlag_sp (s : State) (b : Byte) : (s.setFlag b).sp = s.sp := rfl
@[simp] theorem State.setFlag_delayTimer (s : State) (b : Byte) : (s.setFlag b).delayTimer = s.delayTimer := rfl
@[simp] theorem State.setFlag_soundTimer (s : State) (b : Byte) : (s.setFlag b).soundTimer = s.soundTimer := rfl
@[simp] theorem State.setFlag_keypad (s : State) (b : Byte) : (s.setFlag b).keypad = s.keypad := rfl
@[simp] theorem State.setFlag_video (s : State) (b : Byte) : (s.setFlag b).video = s.video := rfl
@[simp] theorem State.setFlag_opcode (s : State) (b : Byte) : (s.setFlag b).opcode = s.opcode := rfl
@[simp] theorem State.setFlag_latch (s : State) (b : Byte) : (s.setFlag b).latch = s.latch := rfl
@[simp] theorem State.setFlag_memory (s : State) (b : Byte) : (s.setFlag b).memory = s.memory := rfl
@[simp] theorem State.setFlag_draws (s : State) (b : Byte) : (s.setFlag b).draws = s.draws := rfl
@[simp] theorem State.setFlag_drawCount (s : State) (b : Byte) : (s.setFlag b).drawCount = s.drawCount := rfl

/-! ### `State.consumeDraw` -/

@[simp] theorem State.consumeDraw_v (s : State) : (s.consumeDraw).v = s.v := rfl
@[simp] theorem State.consumeDraw_index (s : State) : (s.consumeDraw).index = s.index := rfl
@[simp] theorem State.consumeDraw_pc (s : State) : (s.consumeDraw).pc = s.pc := rfl
@[simp] theorem State.consumeDraw_stack (s : State) : (s.consumeDraw).stack = s.stack := rfl
@[simp] theorem State.consumeDraw_sp (s : State) : (s.consumeDraw).sp = s.sp := rfl
@[simp] theorem State.consumeDraw_delayTimer (s : State) : (s.consumeDraw).delayTimer = s.delayTimer := rfl
@[simp] theorem State.consumeDraw_soundTimer (s : State) : (s.consumeDraw).soundTimer = s.soundTimer := rfl
@[simp] theorem State.consumeDraw_keypad (s : State) : (s.consumeDraw).keypad = s.keypad := rfl
@[simp] theorem State.consumeDraw_video (s : State) : (s.consumeDraw).video = s.video := rfl
@[simp] theorem State.consumeDraw_opcode (s : State) : (s.consumeDraw).opcode = s.opcode := rfl
@[simp] theorem State.consumeDraw_latch (s : State) : (s.consumeDraw).latch = s.latch := rfl
@[simp] theorem State.consumeDraw_memory (s : State) : (s.consumeDraw).memory = s.memory := rfl
@[simp] theorem State.consumeDraw_draws (s : State) : (s.consumeDraw).draws = s.draws.tail := rfl
@[simp] theorem State.consumeDraw_drawCount (s : State) : (s.consumeDraw).drawCount = s.drawCount + 1 := rfl

/-! ### `State.tick` -/

@[simp] theorem State.tick_v (s : State) : (s.tick).v = s.v := rfl
@[simp] theorem State.tick_index (s : State) : (s.tick).index = s.index := rfl
@[simp] theorem State.tick_pc (s : State) : (s.tick).pc = s.pc := rfl
@[simp] theorem State.tick_stack (s : State) : (s.tick).stack = s.stack := rfl
@[simp] theorem State.tick_sp (s : State) : (s.tick).sp = s.sp := rfl
@[simp] theorem State.tick_delayTimer (s : State) : (s.tick).delayTimer = countDown s.delayTimer := rfl
@[simp] theorem State.tick_soundTimer (s : State) : (s.tick).soundTimer = countDown s.soundTimer := rfl
@[simp] theorem State.tick_keypad (s : State) : (s.tick).keypad = s.keypad := rfl
@[simp] theorem State.tick_video (s : State) : (s.tick).video = s.video := rfl
@[simp] theorem State.tick_opcode (s : State) : (s.tick).opcode = s.opcode := rfl
@[simp] theorem State.tick_latch (s : State) : (s.tick).latch = s.latch := rfl
@[simp] theorem State.tick_memory (s : State) : (s.tick).memory = s.memory := rfl
@[simp] theorem State.tick_draws (s : State) : (s.tick).draws = s.draws := rfl
@[simp] theorem State.tick_drawCount (s : State) : (s.tick).drawCount = s.drawCount := rfl

/-! ### `State.raise` -/

@[simp] theorem State.raise_v (s : State) (c : FaultCause) (info : Word) : (s.raise c info).v = s.v := rfl
@[simp] theorem State.raise_index (s : State) (c : FaultCause) (info : Word) : (s.raise c info).index = s.index := rfl
@[simp] theorem State.raise_pc (s : State) (c : FaultCause) (info : Word) : (s.raise c info).pc = s.pc := rfl
@[simp] theorem State.raise_stack (s : State) (c : FaultCause) (info : Word) : (s.raise c info).stack = s.stack := rfl
@[simp] theorem State.raise_sp (s : State) (c : FaultCause) (info : Word) : (s.raise c info).sp = s.sp := rfl
@[simp] theorem State.raise_delayTimer (s : State) (c : FaultCause) (info : Word) : (s.raise c info).delayTimer = s.delayTimer := rfl
@[simp] theorem State.raise_soundTimer (s : State) (c : FaultCause) (info : Word) : (s.raise c info).soundTimer = s.soundTimer := rfl
@[simp] theorem State.raise_keypad (s : State) (c : FaultCause) (info : Word) : (s.raise c info).keypad = s.keypad := rfl
@[simp] theorem State.raise_video (s : State) (c : FaultCause) (info : Word) : (s.raise c info).video = s.video := rfl
@[simp] theorem State.raise_opcode (s : State) (c : FaultCause) (info : Word) : (s.raise c info).opcode = s.opcode := rfl
@[simp] theorem State.raise_latch (s : State) (c : FaultCause) (info : Word) : (s.raise c info).latch = ⟨true, c, s.pc, info⟩ := rfl
@[simp] theorem State.raise_memory (s : State) (c : FaultCause) (info : Word) : (s.raise c info).memory = s.memory := rfl
@[simp] theorem State.raise_draws (s : State) (c : FaultCause) (info : Word) : (s.raise c info).draws = s.draws := rfl
@[simp] theorem State.raise_drawCount (s : State) (c : FaultCause) (info : Word) : (s.raise c info).drawCount = s.drawCount := rfl

/-! ### `State.setKeypad` -/

@[simp] theorem State.setKeypad_v (s : State) (keys : BitVec 16) : (s.setKeypad keys).v = s.v := rfl
@[simp] theorem State.setKeypad_index (s : State) (keys : BitVec 16) : (s.setKeypad keys).index = s.index := rfl
@[simp] theorem State.setKeypad_pc (s : State) (keys : BitVec 16) : (s.setKeypad keys).pc = s.pc := rfl
@[simp] theorem State.setKeypad_stack (s : State) (keys : BitVec 16) : (s.setKeypad keys).stack = s.stack := rfl
@[simp] theorem State.setKeypad_sp (s : State) (keys : BitVec 16) : (s.setKeypad keys).sp = s.sp := rfl
@[simp] theorem State.setKeypad_delayTimer (s : State) (keys : BitVec 16) : (s.setKeypad keys).delayTimer = s.delayTimer := rfl
@[simp] theorem State.setKeypad_soundTimer (s : State) (keys : BitVec 16) : (s.setKeypad keys).soundTimer = s.soundTimer := rfl
@[simp] theorem State.setKeypad_keypad (s : State) (keys : BitVec 16) : (s.setKeypad keys).keypad = keys := rfl
@[simp] theorem State.setKeypad_video (s : State) (keys : BitVec 16) : (s.setKeypad keys).video = s.video := rfl
@[simp] theorem State.setKeypad_opcode (s : State) (keys : BitVec 16) : (s.setKeypad keys).opcode = s.opcode := rfl
@[simp] theorem State.setKeypad_latch (s : State) (keys : BitVec 16) : (s.setKeypad keys).latch = s.latch := rfl
@[simp] theorem State.setKeypad_memory (s : State) (keys : BitVec 16) : (s.setKeypad keys).memory = s.memory := rfl
@[simp] theorem State.setKeypad_draws (s : State) (keys : BitVec 16) : (s.setKeypad keys).draws = s.draws := rfl
@[simp] theorem State.setKeypad_drawCount (s : State) (keys : BitVec 16) : (s.setKeypad keys).drawCount = s.drawCount := rfl

/-! ### `State.supplyDraw` -/

@[simp] theorem State.supplyDraw_v (s : State) (b : Byte) : (s.supplyDraw b).v = s.v := rfl
@[simp] theorem State.supplyDraw_index (s : State) (b : Byte) : (s.supplyDraw b).index = s.index := rfl
@[simp] theorem State.supplyDraw_pc (s : State) (b : Byte) : (s.supplyDraw b).pc = s.pc := rfl
@[simp] theorem State.supplyDraw_stack (s : State) (b : Byte) : (s.supplyDraw b).stack = s.stack := rfl
@[simp] theorem State.supplyDraw_sp (s : State) (b : Byte) : (s.supplyDraw b).sp = s.sp := rfl
@[simp] theorem State.supplyDraw_delayTimer (s : State) (b : Byte) : (s.supplyDraw b).delayTimer = s.delayTimer := rfl
@[simp] theorem State.supplyDraw_soundTimer (s : State) (b : Byte) : (s.supplyDraw b).soundTimer = s.soundTimer := rfl
@[simp] theorem State.supplyDraw_keypad (s : State) (b : Byte) : (s.supplyDraw b).keypad = s.keypad := rfl
@[simp] theorem State.supplyDraw_video (s : State) (b : Byte) : (s.supplyDraw b).video = s.video := rfl
@[simp] theorem State.supplyDraw_opcode (s : State) (b : Byte) : (s.supplyDraw b).opcode = s.opcode := rfl
@[simp] theorem State.supplyDraw_latch (s : State) (b : Byte) : (s.supplyDraw b).latch = s.latch := rfl
@[simp] theorem State.supplyDraw_memory (s : State) (b : Byte) : (s.supplyDraw b).memory = s.memory := rfl
@[simp] theorem State.supplyDraw_draws (s : State) (b : Byte) : (s.supplyDraw b).draws = s.draws ++ [b] := rfl
@[simp] theorem State.supplyDraw_drawCount (s : State) (b : Byte) : (s.supplyDraw b).drawCount = s.drawCount := rfl

/-! ### `State.present` -/

@[simp] theorem State.present_v (s : State) (keys : BitVec 16) (rnd : Byte) : (s.present keys rnd).v = s.v := rfl
@[simp] theorem State.present_index (s : State) (keys : BitVec 16) (rnd : Byte) : (s.present keys rnd).index = s.index := rfl
@[simp] theorem State.present_pc (s : State) (keys : BitVec 16) (rnd : Byte) : (s.present keys rnd).pc = s.pc := rfl
@[simp] theorem State.present_stack (s : State) (keys : BitVec 16) (rnd : Byte) : (s.present keys rnd).stack = s.stack := rfl
@[simp] theorem State.present_sp (s : State) (keys : BitVec 16) (rnd : Byte) : (s.present keys rnd).sp = s.sp := rfl
@[simp] theorem State.present_delayTimer (s : State) (keys : BitVec 16) (rnd : Byte) : (s.present keys rnd).delayTimer = s.delayTimer := rfl
@[simp] theorem State.present_soundTimer (s : State) (keys : BitVec 16) (rnd : Byte) : (s.present keys rnd).soundTimer = s.soundTimer := rfl
@[simp] theorem State.present_keypad (s : State) (keys : BitVec 16) (rnd : Byte) : (s.present keys rnd).keypad = keys := rfl
@[simp] theorem State.present_video (s : State) (keys : BitVec 16) (rnd : Byte) : (s.present keys rnd).video = s.video := rfl
@[simp] theorem State.present_opcode (s : State) (keys : BitVec 16) (rnd : Byte) : (s.present keys rnd).opcode = s.opcode := rfl
@[simp] theorem State.present_latch (s : State) (keys : BitVec 16) (rnd : Byte) : (s.present keys rnd).latch = s.latch := rfl
@[simp] theorem State.present_memory (s : State) (keys : BitVec 16) (rnd : Byte) : (s.present keys rnd).memory = s.memory := rfl
@[simp] theorem State.present_draws (s : State) (keys : BitVec 16) (rnd : Byte) : (s.present keys rnd).draws = [rnd] := rfl
@[simp] theorem State.present_drawCount (s : State) (keys : BitVec 16) (rnd : Byte) : (s.present keys rnd).drawCount = s.drawCount := rfl

/-! ### `State.loadRom` -/

@[simp] theorem State.loadRom_v (s : State) (rom : List Byte) : (s.loadRom rom).v = s.v := rfl
@[simp] theorem State.loadRom_index (s : State) (rom : List Byte) : (s.loadRom rom).index = s.index := rfl
@[simp] theorem State.loadRom_pc (s : State) (rom : List Byte) : (s.loadRom rom).pc = s.pc := rfl
@[simp] theorem State.loadRom_stack (s : State) (rom : List Byte) : (s.loadRom rom).stack = s.stack := rfl
@[simp] theorem State.loadRom_sp (s : State) (rom : List Byte) : (s.loadRom rom).sp = s.sp := rfl
@[simp] theorem State.loadRom_delayTimer (s : State) (rom : List Byte) : (s.loadRom rom).delayTimer = s.delayTimer := rfl
@[simp] theorem State.loadRom_soundTimer (s : State) (rom : List Byte) : (s.loadRom rom).soundTimer = s.soundTimer := rfl
@[simp] theorem State.loadRom_keypad (s : State) (rom : List Byte) : (s.loadRom rom).keypad = s.keypad := rfl
@[simp] theorem State.loadRom_video (s : State) (rom : List Byte) : (s.loadRom rom).video = s.video := rfl
@[simp] theorem State.loadRom_opcode (s : State) (rom : List Byte) : (s.loadRom rom).opcode = s.opcode := rfl
@[simp] theorem State.loadRom_latch (s : State) (rom : List Byte) : (s.loadRom rom).latch = s.latch := rfl
@[simp] theorem State.loadRom_memory (s : State) (rom : List Byte) : (s.loadRom rom).memory = Memory.writeBytes s.memory Config.romBase (rom.take Config.romMax) := rfl
@[simp] theorem State.loadRom_draws (s : State) (rom : List Byte) : (s.loadRom rom).draws = s.draws := rfl
@[simp] theorem State.loadRom_drawCount (s : State) (rom : List Byte) : (s.loadRom rom).drawCount = s.drawCount := rfl

/-! ### `State.resetWith` and `State.applyReset` -/

@[simp] theorem State.resetWith_v (font : Config.Font) : (State.resetWith font).v = Vector.replicate 16 0 := rfl
@[simp] theorem State.resetWith_index (font : Config.Font) : (State.resetWith font).index = 0 := rfl
@[simp] theorem State.resetWith_pc (font : Config.Font) : (State.resetWith font).pc = 0x200 := rfl
@[simp] theorem State.resetWith_stack (font : Config.Font) : (State.resetWith font).stack = Vector.replicate 16 0 := rfl
@[simp] theorem State.resetWith_sp (font : Config.Font) : (State.resetWith font).sp = 0 := rfl
@[simp] theorem State.resetWith_delayTimer (font : Config.Font) : (State.resetWith font).delayTimer = 0 := rfl
@[simp] theorem State.resetWith_soundTimer (font : Config.Font) : (State.resetWith font).soundTimer = 0 := rfl
@[simp] theorem State.resetWith_keypad (font : Config.Font) : (State.resetWith font).keypad = 0 := rfl
@[simp] theorem State.resetWith_video (font : Config.Font) : (State.resetWith font).video = Vector.replicate 32 0 := rfl
@[simp] theorem State.resetWith_opcode (font : Config.Font) : (State.resetWith font).opcode = 0 := rfl
@[simp] theorem State.resetWith_latch (font : Config.Font) : (State.resetWith font).latch = FaultLatch.clear := rfl
@[simp] theorem State.resetWith_memory (font : Config.Font) : (State.resetWith font).memory = Memory.writeBytes [] Config.fontBase font.toList := rfl
@[simp] theorem State.resetWith_draws (font : Config.Font) : (State.resetWith font).draws = [] := rfl
@[simp] theorem State.resetWith_drawCount (font : Config.Font) : (State.resetWith font).drawCount = 0 := rfl

@[simp] theorem State.applyReset_v (s : State) (font : Config.Font) : (s.applyReset font).v = Vector.replicate 16 0 := rfl
@[simp] theorem State.applyReset_index (s : State) (font : Config.Font) : (s.applyReset font).index = 0 := rfl
@[simp] theorem State.applyReset_pc (s : State) (font : Config.Font) : (s.applyReset font).pc = 0x200 := rfl
@[simp] theorem State.applyReset_stack (s : State) (font : Config.Font) : (s.applyReset font).stack = Vector.replicate 16 0 := rfl
@[simp] theorem State.applyReset_sp (s : State) (font : Config.Font) : (s.applyReset font).sp = 0 := rfl
@[simp] theorem State.applyReset_delayTimer (s : State) (font : Config.Font) : (s.applyReset font).delayTimer = 0 := rfl
@[simp] theorem State.applyReset_soundTimer (s : State) (font : Config.Font) : (s.applyReset font).soundTimer = 0 := rfl
@[simp] theorem State.applyReset_keypad (s : State) (font : Config.Font) : (s.applyReset font).keypad = 0 := rfl
@[simp] theorem State.applyReset_video (s : State) (font : Config.Font) : (s.applyReset font).video = Vector.replicate 32 0 := rfl
@[simp] theorem State.applyReset_opcode (s : State) (font : Config.Font) : (s.applyReset font).opcode = 0 := rfl
@[simp] theorem State.applyReset_latch (s : State) (font : Config.Font) : (s.applyReset font).latch = FaultLatch.clear := rfl
@[simp] theorem State.applyReset_memory (s : State) (font : Config.Font) : (s.applyReset font).memory = Memory.writeBytes [] Config.fontBase font.toList := rfl
@[simp] theorem State.applyReset_draws (s : State) (font : Config.Font) : (s.applyReset font).draws = s.draws := rfl
@[simp] theorem State.applyReset_drawCount (s : State) (font : Config.Font) : (s.applyReset font).drawCount = s.drawCount := rfl

/-! ### `State.skipIf` -/

@[simp] theorem State.skipIf_v (s : State) (c : Bool) : (s.skipIf c).v = s.v := by cases c <;> rfl
@[simp] theorem State.skipIf_index (s : State) (c : Bool) : (s.skipIf c).index = s.index := by cases c <;> rfl
theorem State.skipIf_pc (s : State) (c : Bool) : (s.skipIf c).pc = if c then s.pc + 2 else s.pc := by
  cases c <;> rfl
@[simp] theorem State.skipIf_stack (s : State) (c : Bool) : (s.skipIf c).stack = s.stack := by cases c <;> rfl
@[simp] theorem State.skipIf_sp (s : State) (c : Bool) : (s.skipIf c).sp = s.sp := by cases c <;> rfl
@[simp] theorem State.skipIf_delayTimer (s : State) (c : Bool) : (s.skipIf c).delayTimer = s.delayTimer := by cases c <;> rfl
@[simp] theorem State.skipIf_soundTimer (s : State) (c : Bool) : (s.skipIf c).soundTimer = s.soundTimer := by cases c <;> rfl
@[simp] theorem State.skipIf_keypad (s : State) (c : Bool) : (s.skipIf c).keypad = s.keypad := by cases c <;> rfl
@[simp] theorem State.skipIf_video (s : State) (c : Bool) : (s.skipIf c).video = s.video := by cases c <;> rfl
@[simp] theorem State.skipIf_opcode (s : State) (c : Bool) : (s.skipIf c).opcode = s.opcode := by cases c <;> rfl
@[simp] theorem State.skipIf_latch (s : State) (c : Bool) : (s.skipIf c).latch = s.latch := by cases c <;> rfl
@[simp] theorem State.skipIf_memory (s : State) (c : Bool) : (s.skipIf c).memory = s.memory := by cases c <;> rfl
@[simp] theorem State.skipIf_draws (s : State) (c : Bool) : (s.skipIf c).draws = s.draws := by cases c <;> rfl
@[simp] theorem State.skipIf_drawCount (s : State) (c : Bool) : (s.skipIf c).drawCount = s.drawCount := by cases c <;> rfl

/-! ### Registers -/

@[simp] theorem State.reg_advance (s : State) (r : Reg) : s.advance.reg r = s.reg r := rfl

@[simp] theorem State.reg_setReg_same (s : State) (r : Reg) (b : Byte) : (s.setReg r b).reg r = b := by
  simp [State.reg, State.setReg]

theorem State.reg_setReg_other (s : State) {r q : Reg} (b : Byte) (h : q ≠ r) : (s.setReg r b).reg q = s.reg q := by
  have : r.val ≠ q.val := fun e => h (Fin.ext e.symm)
  simp [State.reg, State.setReg, this]

theorem State.reg_setReg (s : State) (r q : Reg) (b : Byte) :
    (s.setReg r b).reg q = if q = r then b else s.reg q := by
  by_cases h : q = r
  · subst h; simp
  · simp [h, State.reg_setReg_other]

/-- Reading a register file through `set`, by number. -/
theorem set_reg_same (v : Vector Byte 16) (r : Reg) (b : Byte) : (v.set r b)[r] = b := by simp

theorem set_reg_other (v : Vector Byte 16) {r q : Reg} (b : Byte) (h : q ≠ r) : (v.set r b)[q] = v[q] := by
  have : r.val ≠ q.val := fun e => h (Fin.ext e.symm)
  simp [this]

end Sys2Proof.Machine
end

