-- ==== Sys2Proof/Laws/Ops.lean ====
section
/-! SUPPORT. One lemma per shared operation, saying once everything it can do: the return stack, the range check, block
loads, the timers, the end of a cycle, the flags and the zero extensions. -/

namespace Sys2Proof.Machine

/-! ### The return stack -/

/-- Everything a push can do (R123). -/
theorem State.push?_some {s t : State} {w : Word} (h : s.push? w = some t) :
    ∃ hs : s.sp.val < 16,
      t = { s with stack := s.stack.set s.sp.val w, sp := ⟨s.sp.val + 1, by omega⟩ } := by
  unfold State.push? at h
  split at h
  · rename_i hs
    exact ⟨hs, (Option.some.inj h).symm⟩
  · cases h

theorem State.push?_of_lt {s : State} (w : Word) (h : s.sp.val < 16) :
    s.push? w = some { s with stack := s.stack.set s.sp.val w, sp := ⟨s.sp.val + 1, by omega⟩ } := by
  simp [State.push?, h]

theorem State.push?_none {s : State} {w : Word} : s.push? w = none ↔ s.sp.val = 16 := by
  unfold State.push?
  split <;> simp <;> omega

/-- Everything a pop can do (R121). -/
theorem State.pop?_some {s t : State} {w : Word} (h : s.pop? = some (w, t)) :
    ∃ hs : 0 < s.sp.val,
      w = s.stack[s.sp.val - 1] ∧ t = { s with sp := ⟨s.sp.val - 1, by omega⟩ } := by
  unfold State.pop? at h
  split at h
  · rename_i hs
    have := Option.some.inj h
    exact ⟨hs, (Prod.mk.inj this).1.symm, (Prod.mk.inj this).2.symm⟩
  · cases h

theorem State.pop?_of_pos {s : State} (h : 0 < s.sp.val) :
    s.pop? = some (s.stack[s.sp.val - 1]'(by omega), { s with sp := ⟨s.sp.val - 1, by omega⟩ }) := by
  simp [State.pop?, h]

theorem State.pop?_none {s : State} : s.pop? = none ↔ s.sp.val = 0 := by
  unfold State.pop?
  split <;> simp <;> omega

/-! ### The range check -/

/-- R56 (b), in arithmetic. -/
theorem outOfRange_iff {base cnt : Nat} : outOfRange base cnt = true ↔ 0 < cnt ∧ 4096 < base + cnt := by
  simp only [outOfRange, Bool.and_eq_true, decide_eq_true_eq]
  omega

theorem not_outOfRange_iff {base cnt : Nat} : outOfRange base cnt = false ↔ cnt = 0 ∨ base + cnt ≤ 4096 := by
  rw [← Bool.not_eq_true, outOfRange_iff]
  omega

/-- Everything a checked access can do: all of it, or the rejected cycle. -/
theorem State.checked_cases (s : State) (cnt : Nat) (after : State) :
    (outOfRange s.base cnt = false ∧ s.checked cnt after = .next after) ∨
    (outOfRange s.base cnt = true ∧
      s.checked cnt after = .next (s.raise .dataAddressOutOfRange (rangeInfo s.base))) := by
  unfold State.checked reject
  cases outOfRange s.base cnt <;> simp

theorem State.checked_ok {s : State} {cnt : Nat} (after : State) (h : cnt = 0 ∨ s.base + cnt ≤ 4096) :
    s.checked cnt after = .next after := by
  simp [State.checked, not_outOfRange_iff.mpr h]

theorem State.checked_bad {s : State} {cnt : Nat} (after : State) (h : 0 < cnt ∧ 4096 < s.base + cnt) :
    s.checked cnt after = .next (s.raise .dataAddressOutOfRange (rangeInfo s.base)) := by
  simp [State.checked, reject, outOfRange_iff.mpr h]

/-! ### Blocks of registers -/

/-- Everything a block load does: registers, and nothing else (R176). -/
theorem State.loadRegsFrom_eq (base k : Nat) (s : State) :
    State.loadRegsFrom base k s = { s with v := (State.loadRegsFrom base k s).v } := by
  induction k with
  | zero => rfl
  | succ k ih =>
    simp only [State.loadRegsFrom, State.setReg]
    rw [ih]

@[simp] theorem State.loadRegsFrom_memory (base k : Nat) (s : State) :
    (State.loadRegsFrom base k s).memory = s.memory := by rw [State.loadRegsFrom_eq]

/-- The registers of a block load: those below the bound come from memory, the rest are unchanged. -/
theorem State.reg_loadRegsFrom (base : Nat) (s : State) {k : Nat} (hk : k ≤ 16) (r : Reg) :
    (State.loadRegsFrom base k s).reg r =
      if r.val < k then Memory.read s.memory (base + r.val) else s.reg r := by
  induction k with
  | zero => simp [State.loadRegsFrom]
  | succ k ih =>
    have hk' : (Fin.ofNat 16 k).val = k := by simp [Fin.ofNat]; omega
    unfold State.loadRegsFrom
    rw [State.reg_setReg, ih (by omega)]
    by_cases e : r = Fin.ofNat 16 k
    · have : r.val = k := by rw [e, hk']
      simp only [e, if_true, hk', show k < k + 1 by omega]
    · have : r.val ≠ k := fun h => e (Fin.ext (by rw [hk', h]))
      simp only [e, if_false]
      by_cases h1 : r.val < k
      · simp [h1, show r.val < k + 1 by omega]
      · simp [h1, show ¬ r.val < k + 1 by omega]

/-- The block Fx55 stores (R175): x + 1 bytes, register by register. -/
theorem State.regBlock_length (s : State) (x : Reg) : (s.regBlock x).length = x.val + 1 := by
  simp [State.regBlock, blockCount]

theorem State.regBlock_get (s : State) (x r : Reg) (h : r.val < (s.regBlock x).length) :
    (s.regBlock x)[r.val] = s.reg r := by
  simp [State.regBlock, State.reg]

/-! ### Timers and the end of a cycle -/

/-- R105: one less, stopping at 0. -/
theorem countDown_toNat (t : Byte) : (countDown t).toNat = t.toNat - 1 := by
  unfold countDown
  split
  · rename_i h; subst h; rfl
  · rename_i h
    have h0 : t.toNat ≠ 0 := fun e => h (BitVec.eq_of_toNat_eq (by simpa using e))
    have := t.isLt
    rw [BitVec.toNat_sub, show (1 : Byte).toNat = 1 from rfl]
    omega

/-- A completed cycle keeps the word and steps the timers. -/
theorem State.finish_running {t : State} (w : Word) (h : t.latch.halted = false) :
    t.finish w = { t with opcode := w, delayTimer := countDown t.delayTimer, soundTimer := countDown t.soundTimer } := by
  simp [State.finish, h, State.tick]

/-- A rejected cycle commits nothing more. -/
theorem State.finish_halted {t : State} (w : Word) (h : t.latch.halted = true) : t.finish w = t := by
  simp [State.finish, h]

/-! ### Flags and zero extensions -/

theorem flagByte_toNat (c : Bool) : (flagByte c).toNat = if c then 1 else 0 := by cases c <;> rfl

theorem carryFlag_toNat (a b : Byte) : (carryFlag a b).toNat = if 255 < a.toNat + b.toNat then 1 else 0 := by
  simp [carryFlag, flagByte_toNat]

theorem greaterFlag_toNat (a b : Byte) : (greaterFlag a b).toNat = if b.toNat < a.toNat then 1 else 0 := by
  simp [greaterFlag, flagByte_toNat]

theorem lowBitFlag_toNat (a : Byte) : (lowBitFlag a).toNat = a.toNat % 2 := by
  simp only [lowBitFlag, flagByte_toNat, BitVec.getLsbD, Nat.testBit_zero, decide_eq_true_eq]
  split <;> omega

theorem highBitFlag_toNat (a : Byte) : (highBitFlag a).toNat = a.toNat / 128 := by
  have := a.isLt
  simp only [highBitFlag, flagByte_toNat, BitVec.getLsbD, Nat.testBit_eq_decide_div_mod_eq, decide_eq_true_eq]
  split <;> omega

@[simp] theorem zextAddr_toNat (a : BitVec 12) : (zextAddr a).toNat = a.toNat := by
  have := a.isLt
  simp [zextAddr]; omega

@[simp] theorem zextByte_toNat (b : Byte) : (zextByte b).toNat = b.toNat := by
  have := b.isLt
  simp [zextByte]; omega

theorem glyphAddr_toNat (b : Byte) : (glyphAddr b).toNat = 0x50 + 5 * b.toNat := by
  have := b.isLt
  simp [glyphAddr]; omega

/-! ### The key scan -/

/-- The scan gives the smallest pressed key (R214). -/
theorem firstKey_some {keys : BitVec 16} {k : Nat} (h : firstKey keys = some k) :
    k < 16 ∧ keys.getLsbD k = true ∧ ∀ j, j < k → keys.getLsbD j = false := by
  unfold firstKey at h
  rw [List.find?_range_eq_some] at h
  obtain ⟨h1, h2, h3⟩ := h
  refine ⟨List.mem_range.mp h2, h1, fun j hj => ?_⟩
  simpa using h3 j hj

theorem firstKey_none {keys : BitVec 16} : firstKey keys = none ↔ ∀ k, k < 16 → keys.getLsbD k = false := by
  simp [firstKey, List.find?_eq_none]

/-! ### Placing a word -/

theorem fetchablePc_le (pc : Word) : (fetchablePc pc).toNat ≤ 4094 := by
  unfold fetchablePc lastFetch
  split
  · simp
  · omega

/-- The core runs. -/
theorem State.placeWord_running (w : Word) (s : State) : (s.placeWord w).latch.halted = false := by
  simp only [State.placeWord]
  split
  · rfl
  · simp_all

/-- A fetch can start. -/
theorem State.placeWord_pc (w : Word) (s : State) : (s.placeWord w).pc.toNat ≤ 4094 := fetchablePc_le s.pc

/-- R50 in arithmetic: the byte at the lower address counts 256. -/
theorem wordOfBytes_toNat (hi lo : Byte) : (wordOfBytes hi lo).toNat = hi.toNat * 256 + lo.toNat := by
  unfold wordOfBytes
  rw [BitVec.toNat_append, ← Nat.shiftLeft_add_eq_or_of_lt lo.isLt, Nat.shiftLeft_eq]

theorem wordOfBytes_highByte_lowByte (w : Word) : wordOfBytes (highByte w) (lowByte w) = w := by
  apply BitVec.eq_of_toNat_eq
  have := w.isLt
  simp only [wordOfBytes_toNat, highByte, lowByte, BitVec.extractLsb'_toNat, Nat.shiftRight_eq_div_pow]
  omega

/-- The fetch gives the word. -/
theorem State.placeWord_fetchWord (w : Word) {s : State} (h : Memory.wf s.memory = true) :
    (s.placeWord w).fetchWord = w := by
  have hp := fetchablePc_le s.pc
  have h0 := Memory.read_writeBytes_inside h (fetchablePc s.pc).toNat [highByte w, lowByte w]
    (by simp; omega) (i := 0) (by simp)
  have h1 := Memory.read_writeBytes_inside h (fetchablePc s.pc).toNat [highByte w, lowByte w]
    (by simp; omega) (i := 1) (by simp)
  simp only [Nat.add_zero] at h0
  simp only [State.fetchWord, State.placeWord, h0, h1, List.getElem_cons_zero, List.getElem_cons_succ]
  exact wordOfBytes_highByte_lowByte w

end Sys2Proof.Machine
end

