-- ==== Sys2Proof/Laws/Display.lean ====
section
/-! SUPPORT. What the sprite loops do, pixel by pixel: a pixel is flipped exactly when a sprite bit that is 1 lands on
it, and the collision is seen exactly when one that was set is hit (R192 to R195). -/

namespace Sys2Proof.Machine

/-! ### One pixel -/

theorem pixel_blank (px : Fin 64) (py : Fin 32) : pixel blankVideo px py = false := by
  simp [pixel, blankVideo]

theorem pixel_flip (v : Video) (px qx : Fin 64) (py qy : Fin 32) :
    pixel (flipPixel v px py) qx qy = (pixel v qx qy ^^ decide (qx = px ∧ qy = py)) := by
  unfold pixel flipPixel
  by_cases hy : qy = py
  · subst hy
    simp [Fin.ext_iff, eq_comm]
  · have : py.val ≠ qy.val := fun e => hy (Fin.ext e.symm)
    simp [this, hy]

/-- A screen is its pixels. -/
theorem video_ext {u v : Video} (h : ∀ px py, pixel u px py = pixel v px py) : u = v := by
  apply Vector.ext
  intro i hi
  apply BitVec.eq_of_getLsbD_eq
  intro j hj
  exact h ⟨j, hj⟩ ⟨i, hi⟩

/-- Sprite bit 1 at a place, possibly outside the grid. -/
theorem drawPixel_video (px py : Nat) (c : Canvas) (qx : Fin 64) (qy : Fin 32) :
    pixel (drawPixel px py c).video qx qy =
      (pixel c.video qx qy ^^ decide (qx.val = px ∧ qy.val = py)) := by
  unfold drawPixel
  split
  · simp [pixel_flip, Fin.ext_iff]
  · rename_i h
    have : ¬ (qx.val = px ∧ qy.val = py) := by
      rintro ⟨h1, h2⟩
      exact h ⟨h1 ▸ qx.isLt, h2 ▸ qy.isLt⟩
    simp [this]

theorem drawPixel_hit (px py : Nat) (c : Canvas) :
    (drawPixel px py c).hit = true ↔
      c.hit = true ∨ ∃ (qx : Fin 64) (qy : Fin 32), qx.val = px ∧ qy.val = py ∧ pixel c.video qx qy = true := by
  unfold drawPixel
  split
  · rename_i h
    simp only [Bool.or_eq_true]
    refine or_congr_right ⟨fun e => ⟨⟨px, h.1⟩, ⟨py, h.2⟩, rfl, rfl, e⟩, ?_⟩
    rintro ⟨qx, qy, rfl, rfl, e⟩
    exact e
  · rename_i h
    refine ⟨Or.inl, ?_⟩
    rintro (e | ⟨qx, qy, rfl, rfl, -⟩)
    · exact e
    · exact absurd ⟨qx.isLt, qy.isLt⟩ h

/-! ### One row -/

/-- Whether the first `k` columns of a row `b` at column `xpos` put a 1 on column `qx`. -/
def colBit (b : Byte) (xpos k qx : Nat) : Bool :=
  decide (xpos ≤ qx ∧ qx < xpos + k) && b.getLsbD (7 - (qx - xpos))

theorem colBit_succ (b : Byte) (xpos k qx : Nat) :
    colBit b xpos (k + 1) qx = (colBit b xpos k qx ^^ (b.getLsbD (7 - k) && decide (qx = xpos + k))) := by
  unfold colBit
  by_cases h : qx = xpos + k
  · subst h
    simp
  · have : (xpos ≤ qx ∧ qx < xpos + (k + 1)) ↔ (xpos ≤ qx ∧ qx < xpos + k) := by omega
    simp [this, h]

theorem drawCols_video (b : Byte) (xpos py k : Nat) (c : Canvas) (qx : Fin 64) (qy : Fin 32) :
    pixel (drawCols b xpos py k c).video qx qy =
      (pixel c.video qx qy ^^ (colBit b xpos k qx && decide (qy.val = py))) := by
  induction k with
  | zero =>
    have : ¬ (xpos ≤ qx.val ∧ qx.val < xpos + 0) := by omega
    simp only [drawCols, colBit, this, decide_false, Bool.false_and, Bool.xor_false]
  | succ k ih =>
    unfold drawCols
    rw [colBit_succ]
    cases hb : b.getLsbD (7 - k)
    · simp [ih]
    · simp only [if_true, drawPixel_video, ih]
      cases pixel c.video qx qy <;> cases colBit b xpos k qx.val <;>
        by_cases h1 : qx.val = xpos + k <;> by_cases h2 : qy.val = py <;> simp [h1, h2]

theorem colBit_self (b : Byte) (xpos k : Nat) : colBit b xpos k (xpos + k) = false := by
  simp [colBit]

theorem drawCols_hit (b : Byte) (xpos py k : Nat) (c : Canvas) :
    (drawCols b xpos py k c).hit = true ↔
      c.hit = true ∨ ∃ (qx : Fin 64) (qy : Fin 32),
        colBit b xpos k qx = true ∧ qy.val = py ∧ pixel c.video qx qy = true := by
  induction k with
  | zero =>
    simp only [drawCols, colBit]
    refine ⟨Or.inl, ?_⟩
    rintro (e | ⟨qx, qy, h, -⟩)
    · exact e
    · simp at h; omega
  | succ k ih =>
    unfold drawCols
    cases hb : b.getLsbD (7 - k)
    · simp only [Bool.false_eq_true, if_false, ih]
      simp [colBit_succ, hb]
    · simp only [if_true, drawPixel_hit, ih, or_assoc]
      refine or_congr_right ⟨?_, ?_⟩
      · rintro (⟨qx, qy, h1, h2, h3⟩ | ⟨qx, qy, h1, h2, h3⟩)
        · refine ⟨qx, qy, ?_, h2, h3⟩
          have hne : qx.val ≠ xpos + k := by
            intro e; rw [e, colBit_self] at h1; exact Bool.noConfusion h1
          simp [colBit_succ, h1, hne]
        · refine ⟨qx, qy, ?_, h2, ?_⟩
          · rw [colBit_succ, h1, colBit_self]; simp [hb]
          · rw [drawCols_video, h1, colBit_self] at h3; simpa using h3
      · rintro ⟨qx, qy, h1, h2, h3⟩
        rw [colBit_succ, hb] at h1
        by_cases e : qx.val = xpos + k
        · refine Or.inr ⟨qx, qy, e, h2, ?_⟩
          rw [drawCols_video, e, colBit_self]; simpa using h3
        · refine Or.inl ⟨qx, qy, ?_, h2, h3⟩
          simpa [e] using h1

/-! ### The sprite -/

/-- Whether the first `k` rows of the sprite at `base`, drawn at (`xpos`, `ypos`), put a 1 on the pixel (`qx`, `qy`):
row `qy - ypos` is the byte at `base + (qy - ypos)`, and column `qx - xpos` is its bit `7 - (qx - xpos)` (R193). -/
def spriteBit (m : Memory) (base xpos ypos k qx qy : Nat) : Bool :=
  decide (ypos ≤ qy ∧ qy < ypos + k) && colBit (Memory.read m (base + (qy - ypos))) xpos 8 qx

theorem spriteBit_succ (m : Memory) (base xpos ypos k qx qy : Nat) :
    spriteBit m base xpos ypos (k + 1) qx qy =
      (spriteBit m base xpos ypos k qx qy ^^
        (colBit (Memory.read m (base + k)) xpos 8 qx && decide (qy = ypos + k))) := by
  unfold spriteBit
  by_cases h : qy = ypos + k
  · subst h; simp
  · have : (ypos ≤ qy ∧ qy < ypos + (k + 1)) ↔ (ypos ≤ qy ∧ qy < ypos + k) := by omega
    simp [this, h]

theorem spriteBit_self (m : Memory) (base xpos ypos k qx : Nat) :
    spriteBit m base xpos ypos k qx (ypos + k) = false := by simp [spriteBit]

/-- Every pixel after the rows: the old one, flipped where the sprite has a 1. -/
theorem drawRows_video (m : Memory) (base xpos ypos k : Nat) (c : Canvas) (qx : Fin 64) (qy : Fin 32) :
    pixel (drawRows m base xpos ypos k c).video qx qy =
      (pixel c.video qx qy ^^ spriteBit m base xpos ypos k qx qy) := by
  induction k with
  | zero =>
    have : ¬ (ypos ≤ qy.val ∧ qy.val < ypos + 0) := by omega
    simp only [drawRows, spriteBit, this, decide_false, Bool.false_and, Bool.xor_false]
  | succ k ih =>
    unfold drawRows
    rw [drawCols_video, ih, spriteBit_succ, Bool.xor_assoc]

/-- The collision after the rows: some pixel that was set is hit by a sprite bit that is 1. -/
theorem drawRows_hit (m : Memory) (base xpos ypos k : Nat) (c : Canvas) :
    (drawRows m base xpos ypos k c).hit = true ↔
      c.hit = true ∨ ∃ (qx : Fin 64) (qy : Fin 32),
        spriteBit m base xpos ypos k qx qy = true ∧ pixel c.video qx qy = true := by
  induction k with
  | zero =>
    simp only [drawRows, spriteBit]
    refine ⟨Or.inl, ?_⟩
    rintro (e | ⟨qx, qy, h, -⟩)
    · exact e
    · simp at h; omega
  | succ k ih =>
    unfold drawRows
    rw [drawCols_hit, ih, or_assoc]
    refine or_congr_right ⟨?_, ?_⟩
    · rintro (⟨qx, qy, h1, h2⟩ | ⟨qx, qy, h1, h2, h3⟩)
      · refine ⟨qx, qy, ?_, h2⟩
        have hne : qy.val ≠ ypos + k := by
          intro e; rw [e, spriteBit_self] at h1; exact Bool.noConfusion h1
        simp [spriteBit_succ, h1, hne]
      · refine ⟨qx, qy, ?_, ?_⟩
        · rw [spriteBit_succ, h2, spriteBit_self, h1]; simp
        · rw [drawRows_video, h2, spriteBit_self] at h3; simpa using h3
    · rintro ⟨qx, qy, h1, h2⟩
      rw [spriteBit_succ] at h1
      by_cases e : qy.val = ypos + k
      · refine Or.inr ⟨qx, qy, ?_, e, ?_⟩
        · rw [e, spriteBit_self] at h1; simpa using h1
        · rw [drawRows_video, e, spriteBit_self]; simpa using h2
      · refine Or.inl ⟨qx, qy, ?_, h2⟩
        simpa [e] using h1

end Sys2Proof.Machine
end

