-- ==== Sys2Proof/Laws/Exec.lean ====
section
/-! SUPPORT. What an instruction can do: it is rejected exactly on the fatal condition of the table, otherwise it
completes with the latch as it was; every one answers a next state; and the pieces of the invariant it keeps. -/

namespace Sys2Proof.Machine

/-! ### Rejected or completed -/

theorem rangeInfo_eq (s : State) : rangeInfo s.base = BitVec.ofNat 16 (max s.index.toNat 4096) := rfl

theorem zextByte_eq_ofNat (b : Byte) : zextByte b = BitVec.ofNat 16 b.toNat := by
  apply BitVec.eq_of_toNat_eq
  have := b.isLt
  simp
  omega

/-- An instruction whose fatal condition holds is rejected (R231, R232, R233). -/
theorem exec_raises {i : Instr} {s : State} {c : FaultCause} {info : Word}
    (h : fatalCondition i s = some (c, info)) : exec i s = .next (s.raise c info) := by
  cases i with
  | ret ign =>
    simp only [fatalCondition] at h
    split at h
    · rename_i h0
      have hp : s.advance.pop? = none := State.pop?_none.mpr (by simpa using h0)
      cases h
      simp [exec, execRet, hp, reject]
    · cases h
  | call nnn =>
    simp only [fatalCondition] at h
    split at h
    · rename_i h0
      have hp : s.advance.push? s.advance.pc = none := State.push?_none.mpr (by simpa using h0)
      cases h
      simp only [exec, execCall, hp, reject]
    · cases h
  | drw x y n =>
    simp only [fatalCondition] at h
    split at h
    · cases h
      simp only [exec, execDrw]
      exact State.checked_bad _ (by unfold State.base; omega)
    · cases h
  | ldB x =>
    simp only [fatalCondition] at h
    split at h
    · cases h
      simp only [exec, execLdB]
      exact State.checked_bad _ (by unfold State.base; omega)
    · cases h
  | storeRegs x =>
    simp only [fatalCondition] at h
    split at h
    · cases h
      simp only [exec, execStoreRegs]
      exact State.checked_bad _ (by unfold State.base blockCount; omega)
    · cases h
  | loadRegs x =>
    simp only [fatalCondition] at h
    split at h
    · cases h
      simp only [exec, execLoadRegs]
      exact State.checked_bad _ (by unfold State.base blockCount; omega)
    · cases h
  | skp x ign =>
    simp only [fatalCondition] at h
    split at h
    · rename_i h0
      cases h
      simp only [exec, execSkp, h0, if_true, reject, zextByte_eq_ofNat]
    · cases h
  | sknp x ign =>
    simp only [fatalCondition] at h
    split at h
    · rename_i h0
      cases h
      simp only [exec, execSknp, h0, if_true, reject, zextByte_eq_ofNat]
    · cases h
  | _ => simp [fatalCondition] at h

/-- An instruction whose fatal condition does not hold completes, and leaves the latch, `opcode` and the keypad alone
(R107). -/
theorem exec_completes {i : Instr} {s : State} (h : fatalCondition i s = none) :
    ∃ t, exec i s = .next t ∧ t.latch = s.latch ∧ t.opcode = s.opcode ∧ t.keypad = s.keypad := by
  cases i with
  | ret ign =>
    have h0 : 0 < s.advance.sp.val := by
      by_contra e
      simp [fatalCondition, show s.sp.val = 0 by simpa using e] at h
    simp only [exec, execRet, State.pop?_of_pos h0]
    exact ⟨_, rfl, rfl, rfl, rfl⟩
  | call nnn =>
    have h0 : s.advance.sp.val < 16 := by
      have := s.sp.isLt
      by_contra e
      have h16 : s.sp.val = 16 := by simp at e; omega
      simp [fatalCondition, h16] at h
    simp only [exec, execCall, State.push?_of_lt _ h0]
    exact ⟨_, rfl, rfl, rfl, rfl⟩
  | drw x y n =>
    have h0 : n.val = 0 ∨ s.base + n.val ≤ 4096 := by
      by_contra e
      have : 0 < n.val ∧ 4095 < s.index.toNat + n.val - 1 := by unfold State.base at e; omega
      simp [fatalCondition, this] at h
    simp only [exec, execDrw, State.checked_ok _ h0]
    exact ⟨_, rfl, rfl, rfl, rfl⟩
  | ldB x =>
    have h0 : 3 = 0 ∨ s.base + 3 ≤ 4096 := by
      by_contra e
      have : 4095 < s.index.toNat + 2 := by unfold State.base at e; omega
      simp [fatalCondition, this] at h
    simp only [exec, execLdB, State.checked_ok _ h0]
    exact ⟨_, rfl, rfl, rfl, rfl⟩
  | storeRegs x =>
    have h0 : blockCount x = 0 ∨ s.base + blockCount x ≤ 4096 := by
      by_contra e
      have : 4095 < s.index.toNat + x.val := by unfold State.base blockCount at e; omega
      simp [fatalCondition, this] at h
    simp only [exec, execStoreRegs, State.checked_ok _ h0]
    exact ⟨_, rfl, rfl, rfl, rfl⟩
  | loadRegs x =>
    have h0 : blockCount x = 0 ∨ s.base + blockCount x ≤ 4096 := by
      by_contra e
      have : 4095 < s.index.toNat + x.val := by unfold State.base blockCount at e; omega
      simp [fatalCondition, this] at h
    simp only [exec, execLoadRegs, State.checked_ok _ h0]
    refine ⟨_, rfl, ?_⟩
    rw [State.loadRegsFrom_eq]
    exact ⟨rfl, rfl, rfl⟩
  | skp x ign =>
    have h0 : ¬ 15 < (s.reg x).toNat := by
      intro e
      simp [fatalCondition, e] at h
    simp only [exec, execSkp, h0, if_false]
    exact ⟨_, rfl, by simp, by simp, by simp⟩
  | sknp x ign =>
    have h0 : ¬ 15 < (s.reg x).toNat := by
      intro e
      simp [fatalCondition, e] at h
    simp only [exec, execSknp, h0, if_false]
    exact ⟨_, rfl, by simp, by simp, by simp⟩
  | seByte x kk => exact ⟨_, rfl, by simp, by simp, by simp⟩
  | sneByte x kk => exact ⟨_, rfl, by simp, by simp, by simp⟩
  | seReg x y ign => exact ⟨_, rfl, by simp, by simp, by simp⟩
  | sneReg x y ign => exact ⟨_, rfl, by simp, by simp, by simp⟩
  | ldVxK x =>
    simp only [exec, execLdVxK]
    split <;> exact ⟨_, rfl, rfl, rfl, rfl⟩
  | _ => exact ⟨_, rfl, rfl, rfl, rfl⟩

/-- Everything `exec` can do, fault-wise: the rejected state of the table, or a completed one. -/
theorem exec_cases (i : Instr) (s : State) :
    (∃ c info, fatalCondition i s = some (c, info) ∧ exec i s = .next (s.raise c info)) ∨
    (fatalCondition i s = none ∧
      ∃ t, exec i s = .next t ∧ t.latch = s.latch ∧ t.opcode = s.opcode ∧ t.keypad = s.keypad) := by
  cases h : fatalCondition i s with
  | none => exact .inr ⟨rfl, exec_completes h⟩
  | some p => exact .inl ⟨p.1, p.2, rfl, exec_raises h⟩

/-- No table entry is the empty cause. -/
theorem fatalCondition_cause {i : Instr} {s : State} {c : FaultCause} {info : Word}
    (h : fatalCondition i s = some (c, info)) : c ≠ .none := by
  unfold fatalCondition at h
  split at h <;> (try cases h) <;> split at h <;> cases h <;> decide

/-! ### The step -/

/-- Everything a step can do (R238): nothing when halted; a rejected fetch; a rejected instruction; a completed cycle. -/
theorem step_cases (s : State) :
    (s.latch.halted = true ∧ step s = .next s) ∨
    (s.latch.halted = false ∧ 4094 < s.pc.toNat ∧ step s = .next (s.raise .fetchOutOfRange s.pc)) ∨
    (s.latch.halted = false ∧ s.pc.toNat ≤ 4094 ∧ ∃ c info,
      fatalCondition (decode s.fetchWord) s = some (c, info) ∧ step s = .next (s.raise c info)) ∨
    (s.latch.halted = false ∧ s.pc.toNat ≤ 4094 ∧ fatalCondition (decode s.fetchWord) s = none ∧
      ∃ t, exec (decode s.fetchWord) s = .next t ∧ t.latch = s.latch ∧ t.keypad = s.keypad ∧
        step s = .next { t with
          opcode := s.fetchWord
          delayTimer := countDown t.delayTimer
          soundTimer := countDown t.soundTimer }) := by
  cases hh : s.latch.halted
  · refine .inr ?_
    by_cases hp : 4094 < s.pc.toNat
    · refine .inl ⟨rfl, hp, ?_⟩
      simp [step, cycle, hh, lastFetch, hp, reject]
    · refine .inr ?_
      have hp' : s.pc.toNat ≤ 4094 := by omega
      rcases exec_cases (decode s.fetchWord) s with ⟨c, info, hc, he⟩ | ⟨hc, t, he, hl, -, hk⟩
      · refine .inl ⟨rfl, hp', c, info, hc, ?_⟩
        simp [step, cycle, hh, lastFetch, hp, runWord, he, State.finish]
      · refine .inr ⟨rfl, hp', hc, t, he, hl, hk, ?_⟩
        have ht : t.latch.halted = false := by rw [hl, hh]
        simp [step, cycle, hh, lastFetch, hp, runWord, he, State.finish_running _ ht]
  · refine .inl ⟨rfl, ?_⟩
    simp [step, cycle, hh]

/-! ### The canonical memory is kept -/

/-- No instruction breaks the canonical form. -/
theorem exec_memory_wf {i : Instr} {s t : State} (hm : Memory.wf s.memory = true) (h : exec i s = .next t) :
    Memory.wf t.memory = true := by
  cases i with
  | ldB x =>
    simp only [exec, execLdB] at h
    rcases State.checked_cases s 3 _ with ⟨-, e⟩ | ⟨-, e⟩ <;> rw [e] at h <;> cases h
    · exact Memory.wf_writeBytes hm _ _
    · exact hm
  | storeRegs x =>
    simp only [exec, execStoreRegs] at h
    rcases State.checked_cases s (blockCount x) _ with ⟨-, e⟩ | ⟨-, e⟩ <;> rw [e] at h <;> cases h
    · exact Memory.wf_writeBytes hm _ _
    · exact hm
  | loadRegs x =>
    simp only [exec, execLoadRegs] at h
    rcases State.checked_cases s (blockCount x) _ with ⟨-, e⟩ | ⟨-, e⟩ <;> rw [e] at h <;> cases h
    · simpa using hm
    · exact hm
  | drw x y n =>
    simp only [exec, execDrw] at h
    rcases State.checked_cases s n.val _ with ⟨-, e⟩ | ⟨-, e⟩ <;> rw [e] at h <;> cases h
    · exact hm
    · exact hm
  | ret ign =>
    simp only [exec, execRet] at h
    split at h
    · cases h; exact hm
    · rename_i w u e
      obtain ⟨hs, hw, hu⟩ := State.pop?_some e
      subst hu
      cases h; exact hm
  | call nnn =>
    simp only [exec, execCall] at h
    split at h
    · cases h; exact hm
    · rename_i u e
      obtain ⟨hs, hu⟩ := State.push?_some e
      subst hu
      cases h; exact hm
  | skp x ign =>
    simp only [exec, execSkp] at h
    split at h <;> cases h <;> simpa using hm
  | sknp x ign =>
    simp only [exec, execSknp] at h
    split at h <;> cases h <;> simpa using hm
  | ldVxK x =>
    simp only [exec, execLdVxK] at h
    split at h <;> cases h <;> exact hm
  | seByte x kk => cases h; simpa using hm
  | sneByte x kk => cases h; simpa using hm
  | seReg x y ign => cases h; simpa using hm
  | sneReg x y ign => cases h; simpa using hm
  | _ => cases h; exact hm

end Sys2Proof.Machine
end

