-- ==== Sys2Proof/Laws/PerInstr.lean ====
section
/-! SUPPORT. Statements made per instruction: family RoundTrip, decoding the encoding of a well-formed instruction gives
the instruction back (R70 to R79). -/

namespace Sys2Proof.Laws.RoundTrip

/-- The word of a well-formed instruction decodes to it. -/
def Statement (i : Instr) : Prop := i.wellFormed = true → decode (encode i) = i

theorem cls (ign : Byte) : Statement (.cls ign) := by
  intro _; simp [encode, decode, decode0]
theorem ret (ign : Byte) : Statement (.ret ign) := by
  intro _; simp [encode, decode, decode0]
theorem jp (nnn : BitVec 12) : Statement (.jp nnn) := by
  intro _; simp [encode, decode]
theorem call (nnn : BitVec 12) : Statement (.call nnn) := by
  intro _; simp [encode, decode]
theorem seByte (x : Reg) (kk : Byte) : Statement (.seByte x kk) := by
  intro _; simp [encode, decode]
theorem sneByte (x : Reg) (kk : Byte) : Statement (.sneByte x kk) := by
  intro _; simp [encode, decode]
theorem seReg (x : Reg) (y : Reg) (ign : Nibble) : Statement (.seReg x y ign) := by
  intro _; simp [encode, decode]
theorem ldByte (x : Reg) (kk : Byte) : Statement (.ldByte x kk) := by
  intro _; simp [encode, decode]
theorem addByte (x : Reg) (kk : Byte) : Statement (.addByte x kk) := by
  intro _; simp [encode, decode]
theorem ldReg (x : Reg) (y : Reg) : Statement (.ldReg x y) := by
  intro _; simp [encode, decode, decode8]
theorem orReg (x : Reg) (y : Reg) : Statement (.orReg x y) := by
  intro _; simp [encode, decode, decode8]
theorem andReg (x : Reg) (y : Reg) : Statement (.andReg x y) := by
  intro _; simp [encode, decode, decode8]
theorem xorReg (x : Reg) (y : Reg) : Statement (.xorReg x y) := by
  intro _; simp [encode, decode, decode8]
theorem addReg (x : Reg) (y : Reg) : Statement (.addReg x y) := by
  intro _; simp [encode, decode, decode8]
theorem subReg (x : Reg) (y : Reg) : Statement (.subReg x y) := by
  intro _; simp [encode, decode, decode8]
theorem shr (x : Reg) (y : Reg) : Statement (.shr x y) := by
  intro _; simp [encode, decode, decode8]
theorem subnReg (x : Reg) (y : Reg) : Statement (.subnReg x y) := by
  intro _; simp [encode, decode, decode8]
theorem shl (x : Reg) (y : Reg) : Statement (.shl x y) := by
  intro _; simp [encode, decode, decode8]
theorem sneReg (x : Reg) (y : Reg) (ign : Nibble) : Statement (.sneReg x y ign) := by
  intro _; simp [encode, decode]
theorem ldI (nnn : BitVec 12) : Statement (.ldI nnn) := by
  intro _; simp [encode, decode]
theorem jpV0 (nnn : BitVec 12) : Statement (.jpV0 nnn) := by
  intro _; simp [encode, decode]
theorem rnd (x : Reg) (kk : Byte) : Statement (.rnd x kk) := by
  intro _; simp [encode, decode]
theorem drw (x : Reg) (y : Reg) (n : Nibble) : Statement (.drw x y n) := by
  intro _; simp [encode, decode]
theorem skp (x : Reg) (ign : Nibble) : Statement (.skp x ign) := by
  intro _; simp [encode, decode, decodeE]
theorem sknp (x : Reg) (ign : Nibble) : Statement (.sknp x ign) := by
  intro _; simp [encode, decode, decodeE]
theorem ldVxDt (x : Reg) : Statement (.ldVxDt x) := by
  intro _; simp [encode, decode, decodeF]
theorem ldVxK (x : Reg) : Statement (.ldVxK x) := by
  intro _; simp [encode, decode, decodeF]
theorem ldDtVx (x : Reg) : Statement (.ldDtVx x) := by
  intro _; simp [encode, decode, decodeF]
theorem ldStVx (x : Reg) : Statement (.ldStVx x) := by
  intro _; simp [encode, decode, decodeF]
theorem addI (x : Reg) : Statement (.addI x) := by
  intro _; simp [encode, decode, decodeF]
theorem ldF (x : Reg) : Statement (.ldF x) := by
  intro _; simp [encode, decode, decodeF]
theorem ldB (x : Reg) : Statement (.ldB x) := by
  intro _; simp [encode, decode, decodeF]
theorem storeRegs (x : Reg) : Statement (.storeRegs x) := by
  intro _; simp [encode, decode, decodeF]
theorem loadRegs (x : Reg) : Statement (.loadRegs x) := by
  intro _; simp [encode, decode, decodeF]
theorem nop (w : Word) : Statement (.nop w) := by
  intro h
  simp only [Instr.wellFormed, unmapped, ← topNibble_val, ← fieldN_val, ← fieldKK_toNat, Bool.or_eq_true,
    Bool.and_eq_true, beq_iff_eq] at h
  show decode w = .nop w
  rcases h with ((⟨ht, h⟩ | ⟨ht, h⟩) | ⟨ht, h⟩) | ⟨ht, h⟩
  · simp at h
    simp only [decode, ht, decode0]
    split <;> simp_all
  · simp at h
    simp only [decode, ht, decode8]
    split <;> simp_all
  · simp at h
    simp only [decode, ht, decodeE]
    split <;> simp_all
  · simp at h
    simp only [decode, ht, decodeF]
    split <;> simp_all

end Sys2Proof.Laws.RoundTrip
end

