-- ==== Sys2Proof/Tests/Slice0.lean ====
section
/-! SUPPORT. Tests of the model, and a witness for the hypotheses of every statement.  The words are written out bit by bit
from the formats of R71 and the table of R76; the results of the steps are the worked examples of the instruction rules
and the vectors of spec/95_test_vectors.md, never the model's own answers. -/

namespace Sys2Proof.Tests

open Sys2Proof Sys2Proof.Machine Sys2Proof.Stmt

/-! ### Small states -/

/-- Reset, with the word at 0x200. -/
def ready (w : Word) : State := State.reset.placeWord w

/-- With some registers written. -/
def withRegs (l : List (Reg × Byte)) (s : State) : State := l.foldl (fun s p => s.setReg p.1 p.2) s

/-- With some bytes of memory written. -/
def withBytes (base : Nat) (bs : List Byte) (s : State) : State :=
  { s with memory := Memory.writeBytes s.memory base bs }

/-- The state after one step. -/
def after (s : State) : State :=
  match step s with
  | .next t => t
  | .fault _ => s
  | .refused _ => s

/-- `n` slots of the stack in use, all holding 0x206. -/
def deep (n : Fin 17) (s : State) : State := { s with sp := n, stack := Vector.replicate 16 0x206 }

/-- With `pc` moved. -/
def atPc (a : Word) (s : State) : State := { s with pc := a }

/-- With `index` moved. -/
def atIndex (a : Word) (s : State) : State := { s with index := a }

/-- A `FONT` that is not the default. -/
def otherFont : Config.Font := Vector.replicate 80 0x55

/-! ### WellFormed refuses an ill-formed term: a no-op that carries a mapped word (R79 a to d, and a first-level slot) -/

theorem test_wf_refuses_cls : (Instr.nop 0x0000).wellFormed = false := by decide
theorem test_wf_refuses_ret_alias : (Instr.nop 0x0FFE).wellFormed = false := by decide
theorem test_wf_refuses_shl : (Instr.nop 0x800E).wellFormed = false := by decide
theorem test_wf_refuses_sknp : (Instr.nop 0xE0F1).wellFormed = false := by decide
theorem test_wf_refuses_load : (Instr.nop 0xF565).wellFormed = false := by decide
theorem test_wf_refuses_first_level : (Instr.nop 0x1200).wellFormed = false := by decide
theorem test_wf_takes_unmapped :
    (Instr.nop 0x00FD).wellFormed = true ∧ (Instr.nop 0x8018).wellFormed = true ∧
    (Instr.nop 0xE0A2).wellFormed = true ∧ (Instr.nop 0xF575).wellFormed = true := by decide

/-! ### Decoding, one word a constructor, bit by bit from R71 and R76 -/

theorem test_dec_cls : decode 0b0000000011100000 = .cls 0x0E := by decide
theorem test_dec_ret : decode 0b0000000011101110 = .ret 0x0E := by decide
theorem test_dec_jp : decode 0b0001001000000100 = .jp 0x204 := by decide
theorem test_dec_call : decode 0b0010001000001010 = .call 0x20A := by decide
theorem test_dec_seByte : decode 0b0011000100000000 = .seByte 1 0x00 := by decide
theorem test_dec_sneByte : decode 0b0100001000000111 = .sneByte 2 0x07 := by decide
theorem test_dec_seReg : decode 0b0101001101000000 = .seReg 3 4 0 := by decide
theorem test_dec_ldByte : decode 0b0110000100000101 = .ldByte 1 0x05 := by decide
theorem test_dec_addByte : decode 0b0111000111111111 = .addByte 1 0xFF := by decide
theorem test_dec_ldReg : decode 0b1000111011110000 = .ldReg 14 15 := by decide
theorem test_dec_orReg : decode 0b1000000100100001 = .orReg 1 2 := by decide
theorem test_dec_andReg : decode 0b1000000100100010 = .andReg 1 2 := by decide
theorem test_dec_xorReg : decode 0b1000000100100011 = .xorReg 1 2 := by decide
theorem test_dec_addReg : decode 0b1000000000010100 = .addReg 0 1 := by decide
theorem test_dec_subReg : decode 0b1000000100100101 = .subReg 1 2 := by decide
theorem test_dec_shr : decode 0b1000000100000110 = .shr 1 0 := by decide
theorem test_dec_subnReg : decode 0b1000000100100111 = .subnReg 1 2 := by decide
theorem test_dec_shl : decode 0b1000000100001110 = .shl 1 0 := by decide
theorem test_dec_sneReg : decode 0b1001001101000000 = .sneReg 3 4 0 := by decide
theorem test_dec_ldI : decode 0b1010001100000000 = .ldI 0x300 := by decide
theorem test_dec_jpV0 : decode 0b1011111111111111 = .jpV0 0xFFF := by decide
theorem test_dec_rnd : decode 0b1100001100001111 = .rnd 3 0x0F := by decide
theorem test_dec_drw : decode 0b1101000100100101 = .drw 1 2 5 := by decide
theorem test_dec_skp : decode 0b1110001010011110 = .skp 2 0x9 := by decide
theorem test_dec_sknp : decode 0b1110001010100001 = .sknp 2 0xA := by decide
theorem test_dec_ldVxDt : decode 0b1111000100000111 = .ldVxDt 1 := by decide
theorem test_dec_ldVxK : decode 0b1111001000001010 = .ldVxK 2 := by decide
theorem test_dec_ldDtVx : decode 0b1111000000010101 = .ldDtVx 0 := by decide
theorem test_dec_ldStVx : decode 0b1111010000011000 = .ldStVx 4 := by decide
theorem test_dec_addI : decode 0b1111001000011110 = .addI 2 := by decide
theorem test_dec_ldF : decode 0b1111000000101001 = .ldF 0 := by decide
theorem test_dec_ldB : decode 0b1111001100110011 = .ldB 3 := by decide
theorem test_dec_storeRegs : decode 0b1111001001010101 = .storeRegs 2 := by decide
theorem test_dec_loadRegs : decode 0b1111001001100101 = .loadRegs 2 := by decide
/-- R80, R81: words of other CHIP-8 dialects are no-ops here. -/
theorem test_dec_nop : decode 0b0000000011111101 = .nop 0x00FD ∧ decode 0b1111000001110101 = .nop 0xF075 := by decide
/-- R79: the word of empty memory is 00E0's. -/
theorem test_dec_zero : decode 0 = .cls 0 := by decide
theorem test_dec_truncated : decodeBytes [0x12] = .error .truncated := by decide
theorem test_dec_bytes : decodeBytes [0x12, 0x04, 0x61] = .ok (.jp 0x204, [0x61]) := by decide

/-! ### One step each: the worked examples of the rules -/

/-- R121. -/
theorem test_ret : (after (deep 1 (ready 0x00EE))).pc = 0x206 ∧ (after (deep 1 (ready 0x00EE))).sp = 0 := by decide
/-- R121: an empty stack. -/
theorem test_ret_empty : (after (ready 0x00EE)).latch = ⟨true, .stackUnderflow, 0x200, 0⟩ := by decide
/-- R122. -/
theorem test_jp : (after (ready 0x1FFF)).pc = 0xFFF := by decide
/-- R123: the pushed value is the address after the call. -/
theorem test_call : (after (ready 0x220A)).stack[0] = 0x202 ∧ (after (ready 0x220A)).pc = 0x20A := by decide
/-- R123: a full stack; nothing is pushed. -/
theorem test_call_full : (after (deep 16 (ready 0x220A))).latch = ⟨true, .stackOverflow, 0x200, 16⟩ ∧
    (after (deep 16 (ready 0x220A))).pc = 0x200 := by decide
/-- R124, both ways. -/
theorem test_seByte : (after (ready 0x3100)).pc = 0x204 ∧ (after (withRegs [(1, 4)] (ready 0x3100))).pc = 0x202 := by
  decide
/-- R125, both ways. -/
theorem test_sneByte : (after (withRegs [(2, 7)] (ready 0x4207))).pc = 0x202 ∧
    (after (withRegs [(2, 7)] (ready 0x4208))).pc = 0x204 := by decide
/-- R126, an alias word. -/
theorem test_seReg : (after (withRegs [(3, 9), (4, 9)] (ready 0x534B))).pc = 0x204 := by decide
/-- R127, both ways. -/
theorem test_sneReg : (after (withRegs [(3, 9), (4, 8)] (ready 0x9340))).pc = 0x204 ∧
    (after (withRegs [(3, 9), (4, 9)] (ready 0x9340))).pc = 0x202 := by decide
/-- R128: V0, not Vx, and no reduction. -/
theorem test_jpV0 : (after (withRegs [(0, 0xFF)] (ready 0xBFFF))).pc = 0x10FE ∧
    (after (withRegs [(0, 4), (3, 9)] (ready 0xB300))).pc = 0x304 := by decide
/-- R141. -/
theorem test_ldByte : (after (ready 0x6105)).reg 1 = 5 := by decide
/-- R142: wraps, no flag. -/
theorem test_addByte : (after (withRegs [(1, 0xFF), (15, 7)] (ready 0x7101))).reg 1 = 0 ∧
    (after (withRegs [(1, 0xFF), (15, 7)] (ready 0x7101))).reg 15 = 7 := by decide
/-- R143. -/
theorem test_ldReg : (after (withRegs [(2, 0x7A)] (ready 0x8120))).reg 1 = 0x7A := by decide
/-- R144: VF stays. -/
theorem test_orReg : (after (withRegs [(1, 0x0F), (2, 0xF0), (15, 7)] (ready 0x8121))).reg 1 = 0xFF ∧
    (after (withRegs [(1, 0x0F), (2, 0xF0), (15, 7)] (ready 0x8121))).reg 15 = 7 := by decide
/-- R145. -/
theorem test_andReg : (after (withRegs [(1, 0x3C), (2, 0x0F)] (ready 0x8122))).reg 1 = 0x0C := by decide
/-- R146. -/
theorem test_xorReg : (after (withRegs [(1, 0xFF), (2, 0x0F)] (ready 0x8123))).reg 1 = 0xF0 := by decide
/-- R147. -/
theorem test_addReg : (after (withRegs [(1, 0xFF), (2, 1)] (ready 0x8124))).reg 1 = 0 ∧
    (after (withRegs [(1, 0xFF), (2, 1)] (ready 0x8124))).reg 15 = 1 := by decide
/-- R147, R153: x = F keeps the truncated sum. -/
theorem test_addReg_vf : (after (withRegs [(15, 0xFF), (2, 2)] (ready 0x8F24))).reg 15 = 1 ∧
    (after (withRegs [(15, 0xF0), (2, 0x20)] (ready 0x8F24))).reg 15 = 0x10 := by decide
/-- R148. -/
theorem test_subReg : (after (withRegs [(1, 1), (2, 2)] (ready 0x8125))).reg 1 = 0xFF ∧
    (after (withRegs [(1, 2), (2, 1)] (ready 0x8125))).reg 15 = 1 := by decide
/-- R148, R153: y = F subtracts the new flag. -/
theorem test_subReg_vf : (after (withRegs [(1, 9), (15, 5)] (ready 0x81F5))).reg 1 = 8 := by decide
/-- R149: `V[y]` plays no part. -/
theorem test_shr : (after (withRegs [(1, 5), (2, 0xF0)] (ready 0x8126))).reg 1 = 2 ∧
    (after (withRegs [(1, 5), (2, 0xF0)] (ready 0x8126))).reg 15 = 1 := by decide
/-- R150. -/
theorem test_subnReg : (after (withRegs [(1, 5), (2, 2)] (ready 0x8127))).reg 1 = 0xFD ∧
    (after (withRegs [(1, 2), (2, 5)] (ready 0x8127))).reg 15 = 1 := by decide
/-- R151, and x = F. -/
theorem test_shl : (after (withRegs [(1, 0x81)] (ready 0x810E))).reg 1 = 2 ∧
    (after (withRegs [(15, 0x80)] (ready 0x8F0E))).reg 15 = 2 := by decide
/-- R152. -/
theorem test_rnd : (after { ready 0xC30F with draws := [0xA7] }).reg 3 = 0x07 ∧
    (after { ready 0xC30F with draws := [0xA7] }).draws = [] := by decide
/-- R171. -/
theorem test_ldI : (after (ready 0xA300)).index = 0x300 := by decide
/-- R172: no range check, no flag. -/
theorem test_addI : (after (withRegs [(1, 1)] (atIndex 0xFFF (ready 0xF11E)))).index = 0x1000 ∧
    (after (withRegs [(1, 1)] (atIndex 0xFFF (ready 0xF11E)))).latch.halted = false := by decide
/-- R173: the value used whole. -/
theorem test_ldF : (after (withRegs [(0, 5)] (ready 0xF029))).index = 0x69 ∧
    (after (withRegs [(0, 0xFF)] (ready 0xF029))).index = 0x54B := by decide
/-- R174. -/
theorem test_ldB : (List.range 3).map (fun i =>
    Memory.read (after (withRegs [(3, 156)] (atIndex 0x300 (ready 0xF333)))).memory (0x300 + i)) = [1, 5, 6] := by decide
/-- R174, R56: one byte past the end. -/
theorem test_ldB_end : (after (atIndex 4094 (ready 0xF333))).latch = ⟨true, .dataAddressOutOfRange, 0x200, 4096⟩ := by
  decide
/-- R175: x + 1 bytes. -/
theorem test_storeRegs : (List.range 4).map (fun i =>
    Memory.read (after (withRegs [(0, 0x11), (1, 0x22), (2, 0x33), (3, 0x44)] (atIndex 0x300 (ready 0xF255)))).memory
      (0x300 + i)) = [0x11, 0x22, 0x33, 0] := by decide
/-- R176: x + 1 registers, the others kept. -/
theorem test_loadRegs : (List.range 4).map (fun i =>
    (after (withRegs [(3, 0x44)] (withBytes 0x300 [2, 5, 4, 9] (atIndex 0x300 (ready 0xF265))))).reg (Fin.ofNat 16 i)) =
      [2, 5, 4, 0x44] := by decide
/-- R176, R56: a base above memory is the info. -/
theorem test_loadRegs_end : (after (atIndex 0x1234 (ready 0xF065))).latch.info = 0x1234 := by decide
/-- R191. -/
theorem test_cls : (after { ready 0x00E0 with video := Vector.replicate 32 1 }).video[7] = 0 := by decide
/-- R192: the sprite byte 0xA0 at (0, 0). -/
theorem test_drw : (after (withBytes 0x300 [0xA0] (atIndex 0x300 (ready 0xD121)))).video[0] = 5 ∧
    (after (withBytes 0x300 [0xA0] (atIndex 0x300 (ready 0xD121)))).reg 15 = 0 := by decide
/-- R192, R195: the start wraps (66 is column 2), the right edge clips, a hit sets VF. -/
theorem test_drw_edge :
    (after (withRegs [(1, 66), (2, 33)] (withBytes 0x300 [0x80] (atIndex 0x300 (ready 0xD121))))).video[1] = 4 ∧
    (after (withRegs [(1, 63)] (withBytes 0x300 [0xFF] (atIndex 0x300
      { ready 0xD121 with video := Vector.replicate 32 1 })))).reg 15 = 0 := by decide
/-- R211. -/
theorem test_skp : (after (withRegs [(2, 7)] { ready 0xE29E with keypad := 0x80 })).pc = 0x204 ∧
    (after (withRegs [(2, 7)] (ready 0xE29E))).pc = 0x202 := by decide
/-- R212, and a key that does not exist. -/
theorem test_sknp : (after (withRegs [(2, 7)] (ready 0xE2A1))).pc = 0x204 ∧
    (after (withRegs [(2, 16)] (ready 0xE2A1))).latch = ⟨true, .keypadIndexOutOfRange, 0x200, 16⟩ := by decide
/-- R213: the value before the decrement. -/
theorem test_ldVxDt : (after { ready 0xF107 with delayTimer := 2 }).reg 1 = 2 ∧
    (after { ready 0xF107 with delayTimer := 2 }).delayTimer = 1 := by decide
/-- R214: the lowest key, or wait. -/
theorem test_ldVxK : (after { ready 0xF20A with keypad := 0x280 }).reg 2 = 7 ∧ (after (ready 0xF20A)).pc = 0x200 := by
  decide
/-- R215. -/
theorem test_ldDtVx : (after (withRegs [(0, 3)] (ready 0xF015))).delayTimer = 2 := by decide
/-- R216. -/
theorem test_ldStVx : (after (withRegs [(4, 0x10)] (ready 0xF418))).soundTimer = 0x0F := by decide
/-- R106. -/
theorem test_nop : (after { ready 0x8018 with delayTimer := 2 }).pc = 0x202 ∧
    (after { ready 0x8018 with delayTimer := 2 }).delayTimer = 1 := by decide

/-! ### The cycle -/

/-- R102, R231: a fetch one byte short of a word. -/
theorem test_fetch_end : (after (atPc 4095 State.reset)).latch = ⟨true, .fetchOutOfRange, 4095, 4095⟩ := by decide
/-- R106: an instruction at the last place a fetch can start. -/
theorem test_fetch_last : (after (atPc 4094 State.reset)).pc = 4096 := by decide
/-- R39, R79: what a step from reset with nothing loaded does: word 0x0000 is 00E0. -/
theorem test_reset_step : (after State.reset).pc = 0x202 ∧ (after State.reset).opcode = 0 := by decide
/-- R233: the rejected cycle keeps `opcode` and the timers. -/
theorem test_reject_keeps : (after { ready 0x00EE with delayTimer := 5 }).delayTimer = 5 ∧
    (after { ready 0x00EE with delayTimer := 5 }).opcode = 0 := by decide
/-- R36: glyph 0 starts and glyph F ends the font. -/
theorem test_font : Memory.read State.reset.memory 0x50 = 0xF0 ∧ Memory.read State.reset.memory 0x9F = 0x80 ∧
    Memory.read State.reset.memory 0xA0 = 0 := by decide
/-- R7, D17: `FONT` is an argument; another font is another reset. -/
theorem test_font_argument : Memory.read (State.resetWith otherFont).memory 0x50 = 0x55 ∧
    Memory.read (State.resetWith otherFont).memory 0x9F = 0x55 ∧
    Memory.read (State.resetWith otherFont).memory 0xA0 = 0 := by decide
theorem test_state_withFetchWord : (State.reset.withFetchWord 16 0x6105).fetchWord = 0x6105 := by decide
theorem test_orderly : orderly false [.reset, .loadRom [1], .cycle 0 0] = true ∧
    orderly false [.reset, .cycle 0 0, .loadRom [1]] = false := by decide
theorem test_vidData : ({ State.reset with video := State.reset.video.set 1 4 }).vidData 66 = 0xFFFFFFFF := by decide

/-! ### A witness for the hypotheses of each statement, clause by clause, at the boundaries -/

theorem witness_RetPopsThePc : (0x0AEE#16 &&& 0xF00F#16 = 0x000E#16) ∧ 0 < (deep 1 State.reset).sp.val ∧
    0 < (deep 16 State.reset).sp.val ∧ State.reset.sp.val = 0 := by decide
theorem witness_JpSetsPc : 0x1FFF#16 &&& 0xF000#16 = 0x1000#16 := by decide
theorem witness_CallPushesAndJumps : (0x2FFF#16 &&& 0xF000#16 = 0x2000#16) ∧ State.reset.sp.val < 16 ∧
    (deep 15 State.reset).sp.val < 16 ∧ (deep 16 State.reset).sp.val = 16 := by decide
/-- The subroutine may have run: another `pc`, another V0. -/
theorem witness_CallThenRetComesBack : ∃ t, exec (.call 0x20A) (deep 15 State.reset) = .next t ∧
    (deep 15 State.reset).sp.val < 16 ∧ (withRegs [(0, 9)] (atPc 0x300 t)).stack = t.stack ∧
    (withRegs [(0, 9)] (atPc 0x300 t)).sp = t.sp := ⟨_, rfl, by decide, rfl, rfl⟩
theorem witness_ByteSkips : (0x3100#16 &&& 0xF000#16 = 0x3000#16) ∧ (0x4207#16 &&& 0xF000#16 = 0x4000#16) := by decide
theorem witness_RegisterSkips : (0x534B#16 &&& 0xF000#16 = 0x5000#16) ∧ (0x9340#16 &&& 0xF000#16 = 0x9000#16) := by
  decide
theorem witness_JpV0AddsV0 : 0xBFFF#16 &&& 0xF000#16 = 0xB000#16 := by decide
/-- The last place a fetch can start, with an unmapped word there. -/
theorem witness_NopOnlyAdvances : ((atPc 4094 State.reset).placeWord 0x8018).Running ∧
    ((atPc 4094 State.reset).placeWord 0x8018).pc.toNat = 4094 ∧
    unmapped ((atPc 4094 State.reset).placeWord 0x8018).fetchWord = true := by decide
theorem witness_LoadsWriteOneRegister : (0x6FFF#16 &&& 0xF000#16 = 0x6000#16) ∧ (0x8EF0#16 &&& 0xF00F#16 = 0x8000#16) := by
  decide
theorem witness_AddByteWrapsAndSetsNoFlag : 0x7F01#16 &&& 0xF000#16 = 0x7000#16 := by decide
theorem witness_LogicIsBitwiseAndSetsNoFlag : (0x8121#16 &&& 0xF00F#16 = 0x8001#16) ∧
    (0x8122#16 &&& 0xF00F#16 = 0x8002#16) ∧ (0x8123#16 &&& 0xF00F#16 = 0x8003#16) := by decide
theorem witness_AddRegSumAndCarry : (0x8124#16 &&& 0xF00F#16 = 0x8004#16) ∧ (1 : Reg) ≠ vf ∧ (15 : Reg) = vf := by decide
/-- The four columns of R153. -/
theorem witness_SubRegDifferenceAndFlag : (0x8125#16 &&& 0xF00F#16 = 0x8005#16) ∧ ((14 : Reg) ≠ vf ∧ (2 : Reg) ≠ vf) ∧
    ((15 : Reg) = vf ∧ (0 : Reg) ≠ vf) ∧ ((0 : Reg) ≠ vf ∧ (15 : Reg) = vf) := by decide
theorem witness_ShrHalvesAndKeepsTheLowBit : (0x8106#16 &&& 0xF00F#16 = 0x8006#16) ∧ (14 : Reg) ≠ vf ∧ (15 : Reg) = vf := by
  decide
theorem witness_SubnRegDifferenceAndFlag : (0x8127#16 &&& 0xF00F#16 = 0x8007#16) ∧ ((14 : Reg) ≠ vf ∧ (2 : Reg) ≠ vf) ∧
    ((15 : Reg) = vf ∧ (0 : Reg) ≠ vf) ∧ ((0 : Reg) ≠ vf ∧ (15 : Reg) = vf) := by decide
theorem witness_ShlDoublesAndKeepsTheHighBit : (0x810E#16 &&& 0xF00F#16 = 0x800E#16) ∧ (14 : Reg) ≠ vf ∧ (15 : Reg) = vf := by
  decide
theorem witness_RndMasksOneDraw : (0xC30F#16 &&& 0xF000#16 = 0xC000#16) ∧
    ({ State.reset with draws := [0xA7, 1] }).draws = 0xA7 :: [1] := by decide
theorem witness_IndexWriters : (0xA300#16 &&& 0xF000#16 = 0xA000#16) ∧ (0xF21E#16 &&& 0xF0FF#16 = 0xF01E#16) ∧
    (0xF029#16 &&& 0xF0FF#16 = 0xF029#16) := by decide
/-- The last index that fits and the first that does not. -/
theorem witness_BcdStoresThreeDigits : (0xF333#16 &&& 0xF0FF#16 = 0xF033#16) ∧ Memory.wf (ready 0xF333).memory = true ∧
    (atIndex 4093 (ready 0xF333)).index.toNat + 2 ≤ 4095 ∧ 4095 < (atIndex 4094 (ready 0xF333)).index.toNat + 2 := by
  decide
theorem witness_StoreRegsStoresTheBlock : (0xFF55#16 &&& 0xF0FF#16 = 0xF055#16) ∧ Memory.wf (ready 0xFF55).memory = true ∧
    (atIndex 4080 (ready 0xFF55)).index.toNat + (15 : Reg).val ≤ 4095 ∧
    (atIndex 4095 (ready 0xF055)).index.toNat + (0 : Reg).val ≤ 4095 ∧
    4095 < (atIndex 4081 (ready 0xFF55)).index.toNat + (15 : Reg).val := by decide
theorem witness_LoadRegsLoadsTheBlock : (0xFF65#16 &&& 0xF0FF#16 = 0xF065#16) ∧
    (atIndex 4080 State.reset).index.toNat + (15 : Reg).val ≤ 4095 ∧
    (atIndex 4095 State.reset).index.toNat + (0 : Reg).val ≤ 4095 ∧
    4095 < (atIndex 4096 State.reset).index.toNat + (0 : Reg).val := by decide
/-- The registers may have changed between the two. -/
theorem witness_StoreThenLoadGivesTheRegistersBack :
    ∃ t, exec (.storeRegs 2) (withRegs [(0, 0x11), (2, 0x33)] (atIndex 0x300 State.reset)) = .next t ∧
      Memory.wf (atIndex 0x300 State.reset).memory = true ∧ (atIndex 0x300 State.reset).index.toNat + (2 : Reg).val ≤ 4095 ∧
      (withRegs [(0, 7), (2, 8)] t).memory = t.memory ∧ (withRegs [(0, 7), (2, 8)] t).index = 0x300 :=
  ⟨_, rfl, by decide, by decide, rfl, rfl⟩
theorem witness_StoredBytesAreFetched :
    ∃ t, exec (.storeRegs 2) (withRegs [(1, 0x12), (2, 0x34)] (atIndex 0x300 State.reset)) = .next t ∧
      Memory.wf (atIndex 0x300 State.reset).memory = true ∧ (2 : Reg).val = (1 : Reg).val + 1 ∧ (2 : Reg) ≤ 2 ∧
      (atPc 0x301 t).memory = t.memory ∧ (atPc 0x301 t).pc.toNat = 0x300 + (1 : Reg).val :=
  ⟨_, rfl, by decide, by decide, by decide, rfl, by decide⟩
theorem witness_ClsClearsEveryPixel : 0x0000#16 &&& 0xF00F#16 = 0x0000#16 := by decide
/-- No rows with an index far outside; the last range that fits, and the first that does not; a hit; no hit. -/
theorem witness_DrwComposesPixelwise : (0xD12F#16 &&& 0xF000#16 = 0xD000#16) ∧
    ((0 : Nibble).val = 0 ∨ (atIndex 0xFFFF State.reset).index.toNat + (0 : Nibble).val ≤ 4096) ∧
    ((15 : Nibble).val = 0 ∨ (atIndex 4081 State.reset).index.toNat + (15 : Nibble).val ≤ 4096) ∧
    (0 < (15 : Nibble).val ∧ 4095 < (atIndex 4082 State.reset).index.toNat + (15 : Nibble).val - 1) := by decide
theorem witness_DrwComposesPixelwise_hit :
    (∃ (px : Fin 64) (py : Fin 32), spriteOn (withBytes 0 [0x80] State.reset) 63 31 1 px.val py.val = true ∧
      pixel (State.reset.video.set 31 (1#64 <<< 63)) px py = true) ∧
    spriteOn (withBytes 0 [0x80] State.reset) 63 31 1 62 31 = false := ⟨⟨63, 31, by decide, by decide⟩, by decide⟩
theorem witness_DrawingTwiceErases : ∃ t, exec (.drw 0 0 1) (withBytes 0 [0x80] State.reset) = .next t ∧
    ((1 : Nibble).val = 0 ∨ (withBytes 0 [0x80] State.reset).index.toNat + (1 : Nibble).val ≤ 4096) ∧
    (∀ px py, pixel (withBytes 0 [0x80] State.reset).video px py = false) ∧
    ∃ (px : Fin 64) (py : Fin 32), spriteOn (withBytes 0 [0x80] State.reset) 0 0 1 px.val py.val = true :=
  ⟨_, rfl, by decide, fun px py => by simp [withBytes, State.reset, pixel], 0, 0, by decide⟩
theorem witness_KeySkips : (0xE29E#16 &&& 0xF00F#16 = 0xE00E#16) ∧ (0xE2A1#16 &&& 0xF00F#16 = 0xE001#16) ∧
    ((withRegs [(2, 15)] State.reset).reg 2).toNat ≤ 15 ∧ 15 < ((withRegs [(2, 16)] State.reset).reg 2).toNat := by decide
/-- The lowest of two keys, the last key alone, and no key. -/
theorem witness_KeyWaitTakesTheLowestKey : (0xF20A#16 &&& 0xF0FF#16 = 0xF00A#16) ∧
    ((0x0280#16).getLsbD (7 : Fin 16) = true ∧ ∀ j : Fin 16, j < 7 → (0x0280#16).getLsbD j = false) ∧
    ((0x8000#16).getLsbD (15 : Fin 16) = true ∧ ∀ j : Fin 16, j < 15 → (0x8000#16).getLsbD j = false) ∧
    ∀ k : Fin 16, State.reset.keypad.getLsbD k = false := by decide
theorem witness_TimerReadPrecedesTheDecrement : (0xF107#16 &&& 0xF0FF#16 = 0xF007#16) ∧ (ready 0xF107).Running ∧
    (ready 0xF107).pc.toNat ≤ 4094 ∧ decode (ready 0xF107).fetchWord = .ldVxDt 1 := by decide
theorem witness_TimerWriteIsSteppedInItsOwnCycle : (0xF015#16 &&& 0xF0FF#16 = 0xF015#16) ∧
    (0xF418#16 &&& 0xF0FF#16 = 0xF018#16) ∧ (ready 0xF015).Running ∧ (ready 0xF015).pc.toNat ≤ 4094 ∧
    decode (ready 0xF015).fetchWord = .ldDtVx 0 ∧ decode (ready 0xF418).fetchWord = .ldStVx 4 := by decide
/-- A completed cycle, and a rejected one. -/
theorem witness_EveryCompletedCycleStepsTheTimers :
    (∃ t, step { ready 0x6105 with delayTimer := 5 } = .next t ∧ (ready 0x6105).Running ∧ t.Running) ∧
    ∃ t, step { ready 0x00EE with delayTimer := 5 } = .next t ∧ t.latch.halted = true :=
  ⟨⟨_, rfl, by decide, by decide⟩, _, rfl, by decide⟩
/-- A completed instruction and a rejected one. -/
theorem witness_StepRunsTheDecodedInstruction :
    (ready 0x6105).Running ∧ (ready 0x6105).pc.toNat ≤ 4094 ∧
    (0x6105#16).toNat = (Memory.read (ready 0x6105).memory (ready 0x6105).pc.toNat).toNat * 256 +
      (Memory.read (ready 0x6105).memory ((ready 0x6105).pc.toNat + 1)).toNat ∧
    decode 0x6105 = .ldByte 1 5 ∧ (Instr.ldByte 1 5).wellFormed = true ∧
    (∃ t, exec (.ldByte 1 5) (ready 0x6105) = .next t ∧ t.latch.halted = false) ∧
    ∃ t, exec (.ret 0x0E) (ready 0x00EE) = .next t ∧ t.latch.halted = true :=
  ⟨by decide, by decide, by decide, by decide, by decide, ⟨_, rfl, by decide⟩, _, rfl, by decide⟩
theorem witness_HaltedCoreNeverMoves : (after (ready 0x00EE)).latch.halted = true ∧ HostMove.cycle 0xFFFF 7 ≠ .reset ∧
    (∃ t, (after (ready 0x00EE)).move Config.defaultFont (.cycle 0xFFFF 7) = .next t) ∧ ∃ t, (after (ready 0x00EE)).move otherFont .reset = .next t :=
  ⟨by decide, by decide, ⟨_, rfl⟩, _, rfl⟩
/-- A rejected fetch and a rejected instruction. -/
theorem witness_RejectedCycleCommitsNothing :
    (∃ t, step (atPc 4095 State.reset) = .next t ∧ (atPc 4095 State.reset).Running ∧ t.latch.halted = true) ∧
    ∃ t, step (ready 0x00EE) = .next t ∧ (ready 0x00EE).Running ∧ t.latch.halted = true :=
  ⟨⟨_, rfl, by decide, by decide⟩, _, rfl, by decide, by decide⟩
/-- The first address a fetch cannot start at; below it an instruction that raises and one that does not. -/
theorem witness_FatalConditionsAreExactlyTheTable : (atPc 4095 State.reset).Running ∧ 4094 < (atPc 4095 State.reset).pc.toNat ∧
    (ready 0x00EE).Running ∧ (ready 0x00EE).pc.toNat ≤ 4094 ∧
    fatalCondition (decode (ready 0x00EE).fetchWord) (ready 0x00EE) = some (.stackUnderflow, 0) ∧
    fatalCondition (decode (ready 0x6105).fetchWord) (ready 0x6105) = none := by decide
theorem witness_OnlyDisplayInstructionsWriteVideo : (∀ ign, Instr.skp 2 9 ≠ .cls ign) ∧ (∀ x y n, Instr.skp 2 9 ≠ .drw x y n) ∧
    ∃ t, exec (.skp 2 9) State.reset = .next t := ⟨nofun, nofun, _, rfl⟩
theorem witness_OnlyTheTwoStoresWriteMemory : (∀ x, Instr.loadRegs 3 ≠ .ldB x) ∧ (∀ x, Instr.loadRegs 3 ≠ .storeRegs x) ∧
    ∃ t, exec (.loadRegs 3) State.reset = .next t := ⟨nofun, nofun, _, rfl⟩
theorem witness_OnlyCallAndRetReachTheStack :
    (∃ t, exec (.ret 0x0E) (deep 1 State.reset) = .next t ∧ ∀ nnn, Instr.ret 0x0E ≠ .call nnn) ∧
    ∃ t, exec (.jp 0x300) State.reset = .next t ∧ (∀ nnn, Instr.jp 0x300 ≠ .call nnn) ∧ ∀ ign, Instr.jp 0x300 ≠ .ret ign :=
  ⟨⟨_, rfl, nofun⟩, _, rfl, nofun, nofun⟩
/-- A block load that stops one register short of VF. -/
theorem witness_OnlyFlagWritersTouchVfUnnamed : writesFlag (.loadRegs 14) = false ∧ namesVf (.loadRegs 14) = false ∧
    ∃ t, exec (.loadRegs 14) State.reset = .next t := ⟨by decide, by decide, _, rfl⟩
theorem witness_PcMovesByTwoWithoutATransfer : State.reset.Running ∧ transfersControl (.ldB 3) = false ∧
    ∃ t, exec (.ldB 3) State.reset = .next t ∧ t.Running := ⟨by decide, by decide, _, rfl, by decide⟩
theorem witness_OnlyThreeInstructionsWriteIndex : (∀ nnn, Instr.storeRegs 3 ≠ .ldI nnn) ∧ (∀ x, Instr.storeRegs 3 ≠ .addI x) ∧
    (∀ x, Instr.storeRegs 3 ≠ .ldF x) ∧ ∃ t, exec (.storeRegs 3) State.reset = .next t := ⟨nofun, nofun, nofun, _, rfl⟩
theorem witness_NoCycleWritesTheKeypad : ∃ t, step { ready 0xF20A with keypad := 0x280 } = .next t := ⟨_, rfl⟩
theorem witness_OnlyRndConsumesADraw : (∀ x kk, Instr.ldByte 1 5 ≠ .rnd x kk) ∧
    ∃ t, exec (.ldByte 1 5) { State.reset with draws := [0xA7] } = .next t := ⟨nofun, _, rfl⟩
theorem witness_DecodeInvertsEncode : (Instr.nop 0x8018).wellFormed = true ∧ (Instr.drw 15 15 15).wellFormed = true := by
  decide
theorem witness_ResetValues : State.resetWith otherFont = State.resetWith otherFont ∧
    ∃ u : State, (after (ready 0x00EE)).applyReset otherFont = u.applyReset otherFont := ⟨rfl, _, rfl⟩
/-- The first byte and the last byte that a load takes, and the addresses around it. -/
theorem witness_RomLoadCopiesVerbatim : Memory.wf State.reset.memory = true ∧ 0 < [0x12, 0x00].length ∧
    3583 < (List.replicate 3585 (0x61 : Byte)).length ∧ (0x1FF < 0x200) ∧
    0x200 + min (List.replicate 3585 (0x61 : Byte)).length 3584 ≤ 4096 := by
  simp only [List.length_replicate]; decide
theorem witness_PlacedWordRunsNext : Memory.wf State.reset.memory = true ∧
    ∃ t, exec (decode 0x6105) (State.reset.withFetchWord 16 (0x6105#16).toNat) = .next t ∧ t.Running :=
  ⟨by decide, _, rfl, by decide⟩
/-- A running state that is not the state after reset. -/
theorem witness_StepKeepsInv : (ready 0x1200).Inv ∧ ∃ t, step (ready 0x1200) = .next t := by
  refine ⟨⟨by decide, ⟨fun _ => rfl, nofun⟩, by decide, by decide⟩, _, rfl⟩
/-- The same, halted. -/
theorem witness_StepKeepsInv_halted : (after (ready 0x00EE)).Inv :=
  ⟨by decide, ⟨nofun, fun _ => ⟨by decide, by decide⟩⟩, by decide, by decide⟩
theorem witness_HostMovesKeepInv : (ready 0x1200).Inv ∧ (∃ t, (ready 0x1200).move otherFont .reset = .next t) ∧
    (∃ t, (ready 0x1200).move Config.defaultFont (.loadRom [0x12, 0x00]) = .next t) ∧ ∃ t, (ready 0x1200).move Config.defaultFont (.cycle 1 2) = .next t :=
  ⟨witness_StepKeepsInv.1, ⟨_, rfl⟩, ⟨_, rfl⟩, _, rfl⟩

end Sys2Proof.Tests
end

section
/-! What one instruction can leave: a single inversion of `exec`, which every frame of this family and the invariant use. -/

namespace Sys2Proof.Machine

open Sys2Proof.Stmt

/-- The states `t` that instruction `i` can leave when it starts in `s`, by the fields it writes (R20 to R40, R107).
`exec_leaves` ties it to `exec`.  The side conditions say which instructions have a shape in common. -/
inductive Leaves (s : State) : Instr → State → Prop where
  /-- A fatal condition (R233). -/
  | rejected (i : Instr) (c : FaultCause) (info : Word) : Leaves s i (s.raise c info)
  /-- One register, which is VF only where the instruction names it (R23). -/
  | reg {i : Instr} (x : Reg) (b : Byte) (hx : x = vf → namesVf i = true) : Leaves s i (s.advance.setReg x b)
  /-- The flag first, then the register (R153). -/
  | flagged {i : Instr} (f : Byte) (x : Reg) (b : Byte) (hi : writesFlag i = true) :
      Leaves s i ((s.advance.setFlag f).setReg x b)
  | rnd (x : Reg) (kk b : Byte) : Leaves s (.rnd x kk) (s.advance.consumeDraw.setReg x b)
  | loadRegs (x : Reg) : Leaves s (.loadRegs x) (State.loadRegsFrom s.base (blockCount x) s.advance)
  | ldB (x : Reg) (m : Memory) : Leaves s (.ldB x) { s.advance with memory := m }
  | storeRegs (x : Reg) (m : Memory) : Leaves s (.storeRegs x) { s.advance with memory := m }
  | ldI (nnn : BitVec 12) (w : Word) : Leaves s (.ldI nnn) { s.advance with index := w }
  | addI (x : Reg) (w : Word) : Leaves s (.addI x) { s.advance with index := w }
  | ldF (x : Reg) (w : Word) : Leaves s (.ldF x) { s.advance with index := w }
  | cls (ign : Byte) : Leaves s (.cls ign) { s.advance with video := blankVideo }
  | drw (x y : Reg) (n : Nibble) (u : Video) (f : Byte) :
      Leaves s (.drw x y n) ({ s.advance with video := u }.setFlag f)
  | ldDtVx (x : Reg) : Leaves s (.ldDtVx x) { s.advance with delayTimer := s.reg x }
  | ldStVx (x : Reg) : Leaves s (.ldStVx x) { s.advance with soundTimer := s.reg x }
  /-- A skip, taken or not (R120). -/
  | skip {i : Instr} (c : Bool) (hi : transfersControl i = true) : Leaves s i (s.advance.skipIf c)
  /-- A jump, at most to the largest sum of V0 and a 12-bit address (R128). -/
  | jump {i : Instr} (w : Word) (hi : transfersControl i = true) (hw : w.toNat ≤ 0x10FE) :
      Leaves s i (s.advance.jump w)
  /-- Fx0A with no key down comes back to itself (R214). -/
  | wait (x : Reg) : Leaves s (.ldVxK x) s
  | ret (ign : Byte) (h : 0 < s.sp.val) :
      Leaves s (.ret ign) { s with pc := s.stack[s.sp.val - 1], sp := ⟨s.sp.val - 1, by omega⟩ }
  | call (nnn : BitVec 12) (h : s.sp.val < 16) :
      Leaves s (.call nnn) { s with
        pc := zextAddr nnn, stack := s.stack.set s.sp.val (s.pc + 2), sp := ⟨s.sp.val + 1, by omega⟩ }
  | nop (w : Word) : Leaves s (.nop w) s.advance

/-- A checked access leaves what its completed form leaves, or is rejected. -/
theorem Leaves.of_checked {i : Instr} {s t after : State} {cnt : Nat} (h : s.checked cnt after = .next t)
    (ha : Leaves s i after) : Leaves s i t := by
  rcases State.checked_cases s cnt after with ⟨-, e⟩ | ⟨-, e⟩ <;> rw [e] at h <;> cases h
  · exact ha
  · exact .rejected _ _ _

/-- A key skip leaves a skip, or is rejected (R211, R212). -/
theorem Leaves.of_keySkip {i : Instr} {s t : State} {p : Prop} [Decidable p] {info : Word} {c : Bool}
    (h : (if p then reject .keypadIndexOutOfRange info s else .next (s.advance.skipIf c)) = .next t)
    (hi : transfersControl i = true) : Leaves s i t := by
  split at h <;> cases h
  · exact .rejected _ _ _
  · exact .skip c hi

/-- `pc` moved on and back again is the same state (R214). -/
theorem State.advance_back (s : State) : s.advance.jump (s.advance.pc - 2) = s := by
  simp [State.advance, State.jump]

/-- 00EE: the popped state, or underflow (R121). -/
theorem execRet_leaves {s t : State} (ign : Byte) (h : execRet s = .next t) : Leaves s (.ret ign) t := by
  unfold execRet at h
  split at h
  · cases h
    exact .rejected _ _ _
  · rename_i w u e
    obtain ⟨hs, rfl, rfl⟩ := State.pop?_some e
    cases h
    exact Leaves.ret (s := s) ign hs

/-- 2nnn: the pushed state, or overflow (R123). -/
theorem execCall_leaves {s t : State} (nnn : BitVec 12) (h : execCall nnn s = .next t) :
    Leaves s (.call nnn) t := by
  unfold execCall at h
  split at h
  · cases h
    exact .rejected _ _ _
  · rename_i u e
    obtain ⟨hs, rfl⟩ := State.push?_some e
    cases h
    exact Leaves.call (s := s) nnn hs

/-- Fx0A: a register written, or the wait (R214). -/
theorem execLdVxK_leaves {s t : State} (x : Reg) (h : execLdVxK x s = .next t) : Leaves s (.ldVxK x) t := by
  unfold execLdVxK at h
  split at h
  · cases h
    exact .reg x _ (by simp [namesVf])
  · rw [State.advance_back] at h
    cases h
    exact .wait x

/-- R72: a 12-bit address as a number. -/
theorem zextAddr_le (nnn : BitVec 12) : (zextAddr nnn).toNat ≤ 0xFFF := by
  have := nnn.isLt
  rw [zextAddr_toNat]
  omega

/-- R128: the target of Bnnn is at most 0x10FE. -/
theorem jpV0_target_le (b : Byte) (nnn : BitVec 12) : (zextByte b + zextAddr nnn).toNat ≤ 0x10FE := by
  have := b.isLt
  have := zextAddr_le nnn
  rw [BitVec.toNat_add, zextByte_toNat]
  omega

/-- Everything an instruction can leave. -/
theorem exec_leaves {i : Instr} {s t : State} (h : exec i s = .next t) : Leaves s i t := by
  cases i with
  | ret ign => exact execRet_leaves ign h
  | call nnn => exact execCall_leaves nnn h
  | ldVxK x => exact execLdVxK_leaves x h
  | skp x ign => exact .of_keySkip h rfl
  | sknp x ign => exact .of_keySkip h rfl
  | drw x y n => exact .of_checked h (.drw x y n _ _)
  | ldB x => exact .of_checked h (.ldB x _)
  | storeRegs x => exact .of_checked h (.storeRegs x _)
  | loadRegs x => exact .of_checked h (.loadRegs x)
  | jp nnn => cases h; exact .jump _ rfl ((zextAddr_le nnn).trans (by decide))
  | jpV0 nnn => cases h; exact .jump _ rfl (jpV0_target_le _ nnn)
  | seByte x kk | sneByte x kk | seReg x y ign | sneReg x y ign => cases h; exact .skip _ rfl
  | ldByte x kk | addByte x kk | ldReg x y | orReg x y | andReg x y | xorReg x y | ldVxDt x =>
    cases h; exact .reg x _ (by simp [namesVf])
  | addReg x y | subReg x y | shr x y | subnReg x y | shl x y => cases h; exact .flagged _ x _ rfl
  | rnd x kk => cases h; exact .rnd x kk _
  | ldI nnn => cases h; exact .ldI nnn _
  | addI x => cases h; exact .addI x _
  | ldF x => cases h; exact .ldF x _
  | cls ign => cases h; exact .cls ign
  | ldDtVx x => cases h; exact .ldDtVx x
  | ldStVx x => cases h; exact .ldStVx x
  | nop w => cases h; exact .nop w

/-! ### What a block load leaves alone (R176) -/

@[simp] theorem State.loadRegsFrom_pc (base k : Nat) (s : State) : (State.loadRegsFrom base k s).pc = s.pc := by
  rw [State.loadRegsFrom_eq]
@[simp] theorem State.loadRegsFrom_index (base k : Nat) (s : State) :
    (State.loadRegsFrom base k s).index = s.index := by rw [State.loadRegsFrom_eq]
@[simp] theorem State.loadRegsFrom_stack (base k : Nat) (s : State) :
    (State.loadRegsFrom base k s).stack = s.stack := by rw [State.loadRegsFrom_eq]
@[simp] theorem State.loadRegsFrom_sp (base k : Nat) (s : State) : (State.loadRegsFrom base k s).sp = s.sp := by
  rw [State.loadRegsFrom_eq]

/-! ### The frames -/

/-- Settles O39: of the shapes `exec` can leave, only the call's has other slots, and only it and the return's another
`sp`. -/
theorem onlyCallAndRetReachTheStack : Obligations.OnlyCallAndRetReachTheStack := by
  intro i s t h hcall
  cases exec_leaves h with
  | call nnn => exact absurd rfl (hcall nnn)
  | ret ign => exact ⟨rfl, fun hret => absurd rfl (hret ign)⟩
  | _ => simp

/-- Settles O42: of the shapes `exec` can leave, only those of Annn, Fx1E and Fx29 have another `index`. -/
theorem onlyThreeInstructionsWriteIndex : Obligations.OnlyThreeInstructionsWriteIndex := by
  intro i s t hldI haddI hldF h
  cases exec_leaves h with
  | ldI nnn => exact absurd rfl (hldI nnn)
  | addI x => exact absurd rfl (haddI x)
  | ldF x => exact absurd rfl (hldF x)
  | _ => simp

/-- Settles O41: the shapes with another `pc` are the rejected one, which does not run, and those of the control
transfers. -/
theorem pcMovesByTwoWithoutATransfer : Obligations.PcMovesByTwoWithoutATransfer := by
  intro i s t hs hi h ht
  cases exec_leaves h with
  | rejected c info => cases ht
  | skip c hc | jump w hc => simp [hc] at hi
  | wait x | ret ign | call nnn => cases hi
  | _ => simp

/-- Settles O40: a register write of one of the shapes reaches VF only by a flag writer, or where the instruction names
VF. -/
theorem onlyFlagWritersTouchVfUnnamed : Obligations.OnlyFlagWritersTouchVfUnnamed := by
  intro i s t hflag hvf h
  cases exec_leaves h with
  | reg x b hx =>
    have hne : vf ≠ x := fun e => by simp [hx e.symm] at hvf
    exact State.reg_setReg_other _ b hne
  | rnd x kk b =>
    have hne : vf ≠ x := fun e => by simp [namesVf, e] at hvf
    exact State.reg_setReg_other _ b hne
  | flagged f x b hi => simp [hi] at hflag
  | drw x y n => cases hflag
  | loadRegs x =>
    have hx : x ≠ vf := by simpa [namesVf] using hvf
    have hlast : x.val ≠ 15 := fun e => hx (Fin.ext e)
    have hbelow : ¬ vf.val < blockCount x := by
      show ¬ 15 < x.val + 1
      omega
    have hcount : blockCount x ≤ 16 := x.isLt
    rw [State.reg_loadRegsFrom _ _ hcount, if_neg hbelow, State.reg_advance]
  | skip c => simp [State.reg]
  | _ => rfl

/-- Settles O43: every shape of a step keeps the keypad, the completed one because its instruction does. -/
theorem noCycleWritesTheKeypad : Obligations.NoCycleWritesTheKeypad := by
  intro s t h
  rcases step_cases s with ⟨-, e⟩ | ⟨-, -, e⟩ | ⟨-, -, c, info, -, e⟩ | ⟨-, -, -, u, -, -, hk, e⟩ <;>
    rw [e] at h <;> cases h
  · rfl
  · rfl
  · rfl
  · exact hk

/-! ### The invariant -/

/-- R25, R40: an instruction that was fetched leaves `pc` at most at 0x10FE. -/
theorem exec_pc_le {i : Instr} {s t : State} (hs : s.PcOk) (hf : s.pc.toNat ≤ 4094) (h : exec i s = .next t) :
    t.pc.toNat ≤ 0x10FE := by
  obtain ⟨hpc, hstack⟩ := hs
  have hnext : (s.pc + 2).toNat ≤ 0x10FE := by bv_omega
  cases exec_leaves h with
  | rejected | wait => exact hpc
  | jump w hi hw => exact hw
  | skip c =>
    have hskip : (s.pc + 2 + 2).toNat ≤ 0x10FE := by bv_omega
    rw [State.skipIf_pc, State.advance_pc]
    cases c
    · exact hnext
    · exact hskip
  | ret ign hsp =>
    have := hstack ⟨s.sp.val - 1, by omega⟩
    exact this.trans (by decide)
  | call nnn => exact (zextAddr_le nnn).trans (by decide)
  | _ => simpa using hnext

/-- R25, R28: an instruction that was fetched leaves return addresses of at most 4096; a call pushes one. -/
theorem exec_returnAddress_le {i : Instr} {s t : State} (hs : s.PcOk) (hf : s.pc.toNat ≤ 4094)
    (h : exec i s = .next t) (k : Fin 16) : t.stack[k].toNat ≤ 4096 := by
  obtain ⟨-, hstack⟩ := hs
  cases exec_leaves h with
  | call nnn hsp =>
    have hpush : (s.pc + 2).toNat ≤ 4096 := by bv_omega
    by_cases e : s.sp.val = k.val
    · simpa [e] using hpush
    · simpa [e] using hstack k
  | _ => simpa using hstack k

/-- A rejected cycle keeps the invariant: the latch names the cause and `pc` stands (R233). -/
theorem State.Inv.raise {s : State} (hs : s.Inv) {c : FaultCause} (hc : c ≠ .none) (info : Word) :
    (s.raise c info).Inv := by
  obtain ⟨hmem, -, hpc⟩ := hs
  exact ⟨hmem, ⟨nofun, fun _ => ⟨hc, rfl⟩⟩, hpc⟩

/-- A completed instruction of a running core that was fetched keeps the invariant. -/
theorem State.Inv.exec {i : Instr} {s t : State} (hs : s.Inv) (hrun : s.Running) (hf : s.pc.toNat ≤ 4094)
    (h : exec i s = .next t) (hlatch : t.latch = s.latch) : t.Inv := by
  obtain ⟨hmem, ⟨hclear, -⟩, hpc⟩ := hs
  refine ⟨exec_memory_wf hmem h, ⟨fun _ => hlatch.trans (hclear hrun), fun hh => ?_⟩,
    exec_pc_le hpc hf h, exec_returnAddress_le hpc hf h⟩
  rw [hlatch, hrun] at hh
  cases hh

/-- Settles O57, by the four shapes of a step: halted, rejected fetch, rejected instruction, completed cycle.  The end of
a cycle writes `opcode` and the timers, of which the invariant does not speak. -/
theorem stepKeepsInv : Obligations.StepKeepsInv := by
  intro s t hs h
  rcases step_cases s with ⟨-, e⟩ | ⟨-, -, e⟩ | ⟨-, -, c, info, hc, e⟩ | ⟨hrun, hf, -, u, hu, hlatch, -, e⟩ <;>
    rw [e] at h <;> cases h
  · exact hs
  · exact hs.raise (by decide) _
  · exact hs.raise (fatalCondition_cause hc) _
  · have hinv : u.Inv := hs.exec hrun hf hu hlatch
    exact hinv

/-! ### Reset and the framebuffer port -/

/-- The state after reset is reset applied to a core that has drawn nothing. -/
theorem State.resetWith_eq_applyReset (font : Config.Font) :
    State.resetWith font = State.reset.applyReset font := rfl

/-- R39, D17: the fixed reset is the one for the default `FONT`. -/
theorem State.reset_eq_resetWith_default : State.reset = State.resetWith Config.defaultFont := by
  unfold State.resetWith
  rw [show State.reset.memory = [] from rfl, Memory.writeFont_default]
  rfl

/-- Settles O52: the fields of `applyReset`, which `resetWith` is a case of; memory is the font written over nothing. -/
theorem resetValues : Obligations.ResetValues := by
  refine ⟨State.reset_eq_resetWith_default, fun font s h => ?_⟩
  obtain ⟨u, rfl⟩ : ∃ u : State, s = u.applyReset font :=
    h.elim (fun e => ⟨State.reset, e.trans (State.resetWith_eq_applyReset font)⟩) id
  refine ⟨fun r => by simp [State.reg], rfl, rfl, fun i => by simp, rfl, rfl, rfl, rfl, fun k => by simp,
    pixel_blank, rfl, fun a _ => ?_⟩
  rw [State.applyReset_memory, Memory.read_writeFont]
  have hrange : (Config.fontBase ≤ a ∧ a < Config.fontBase + Config.fontBytes) ↔ (0x50 ≤ a ∧ a ≤ 0x9F) := by
    simp only [Config.fontBase, Config.fontBytes]
    omega
  simp only [resetByteOf, hrange]

/-- Settles O54: entry `py * 64 + px` has quotient `py` and remainder `px` by 64. -/
theorem framebufferShowsThePixels : Obligations.FramebufferShowsThePixels := by
  intro s px py
  have haddr : (BitVec.ofNat 11 (py.val * 64 + px.val)).toNat = py.val * 64 + px.val := by
    rw [BitVec.toNat_ofNat]
    omega
  have hpx : (py.val * 64 + px.val) % 64 = px.val := by omega
  have hpy : (py.val * 64 + px.val) / 64 = py.val := by omega
  simp only [State.vidData, State.framePixel, haddr, hpx, hpy]
  rfl

end Sys2Proof.Machine
end

section
/-! What a block store leaves in memory (spec/20_memory.md), and what a fetch inside the block reads. -/

namespace Sys2Proof.Machine

open Sys2Proof.Stmt

/-- R175: a block store inside memory completes, and leaves the old memory with the block written at `index`. -/
theorem exec_storeRegs_memory {x : Reg} {s t : State} (hx : s.index.toNat + x.val ≤ 4095)
    (h : exec (.storeRegs x) s = .next t) : t.memory = Memory.writeBytes s.memory s.base (s.regBlock x) := by
  have hfits : s.base + blockCount x ≤ 4096 := by
    unfold State.base blockCount
    omega
  have hok : exec (.storeRegs x) s =
      .next { s.advance with memory := Memory.writeBytes s.memory s.base (s.regBlock x) } :=
    State.checked_ok _ (.inr hfits)
  rw [hok] at h
  cases h
  rfl

/-- R175: after a block store inside memory, the byte at `index + r` is `V[r]`, for every `r` up to `x`. -/
theorem exec_storeRegs_read {x r : Reg} {s t : State} (hm : Memory.wf s.memory = true)
    (hx : s.index.toNat + x.val ≤ 4095) (h : exec (.storeRegs x) s = .next t) (hr : r ≤ x) :
    Memory.read t.memory (s.index.toNat + r.val) = s.reg r := by
  have hlength := s.regBlock_length x
  have hfits : s.base + (s.regBlock x).length ≤ 4096 := by
    unfold State.base
    omega
  have hlt : r.val < (s.regBlock x).length := by
    rw [hlength]
    exact Nat.lt_succ_of_le hr
  rw [exec_storeRegs_memory hx h]
  calc Memory.read (Memory.writeBytes s.memory s.base (s.regBlock x)) (s.base + r.val)
      = (s.regBlock x)[r.val] := Memory.read_writeBytes_inside hm _ _ hfits hlt
    _ = s.reg r := State.regBlock_get s x r hlt

/-- R50, R102: the fetched word in arithmetic, the byte at `pc` being the high one. -/
theorem State.fetchWord_toNat (s : State) : s.fetchWord.toNat =
    (Memory.read s.memory s.pc.toNat).toNat * 256 + (Memory.read s.memory (s.pc.toNat + 1)).toNat :=
  wordOfBytes_toNat _ _

/-- Settles O23: both bytes of the fetch lie in the stored block, so the store's read rule gives each of them. -/
theorem storedBytesAreFetched : Obligations.StoredBytesAreFetched := by
  intro x s hm hx t h q r hqr hrx u hmem hpc
  have hqr_le : q.val ≤ r.val := by omega
  have hqx : q ≤ x := Nat.le_trans hqr_le hrx
  have hnext : u.pc.toNat + 1 = s.index.toNat + r.val := by omega
  rw [State.fetchWord_toNat, hmem, hnext, hpc, exec_storeRegs_read hm hx h hqx, exec_storeRegs_read hm hx h hrx]

end Sys2Proof.Machine
end

section
/-! Decoding and encoding are inverse (R70 to R79 of spec/30_encoding.md): every word is the word of exactly one well-formed
instruction, so a statement about all words is a statement about all well-formed instructions. -/

namespace Sys2Proof

/-! ### Decode after encode -/

/-- The word of a well-formed instruction decodes to it: the family RoundTrip, put together. -/
theorem decode_encode {i : Instr} (h : i.wellFormed = true) : decode (encode i) = i := by
  revert h
  cases i with
  | cls ign => exact Laws.RoundTrip.cls ign
  | ret ign => exact Laws.RoundTrip.ret ign
  | jp nnn => exact Laws.RoundTrip.jp nnn
  | call nnn => exact Laws.RoundTrip.call nnn
  | seByte x kk => exact Laws.RoundTrip.seByte x kk
  | sneByte x kk => exact Laws.RoundTrip.sneByte x kk
  | seReg x y ign => exact Laws.RoundTrip.seReg x y ign
  | ldByte x kk => exact Laws.RoundTrip.ldByte x kk
  | addByte x kk => exact Laws.RoundTrip.addByte x kk
  | ldReg x y => exact Laws.RoundTrip.ldReg x y
  | orReg x y => exact Laws.RoundTrip.orReg x y
  | andReg x y => exact Laws.RoundTrip.andReg x y
  | xorReg x y => exact Laws.RoundTrip.xorReg x y
  | addReg x y => exact Laws.RoundTrip.addReg x y
  | subReg x y => exact Laws.RoundTrip.subReg x y
  | shr x y => exact Laws.RoundTrip.shr x y
  | subnReg x y => exact Laws.RoundTrip.subnReg x y
  | shl x y => exact Laws.RoundTrip.shl x y
  | sneReg x y ign => exact Laws.RoundTrip.sneReg x y ign
  | ldI nnn => exact Laws.RoundTrip.ldI nnn
  | jpV0 nnn => exact Laws.RoundTrip.jpV0 nnn
  | rnd x kk => exact Laws.RoundTrip.rnd x kk
  | drw x y n => exact Laws.RoundTrip.drw x y n
  | skp x ign => exact Laws.RoundTrip.skp x ign
  | sknp x ign => exact Laws.RoundTrip.sknp x ign
  | ldVxDt x => exact Laws.RoundTrip.ldVxDt x
  | ldVxK x => exact Laws.RoundTrip.ldVxK x
  | ldDtVx x => exact Laws.RoundTrip.ldDtVx x
  | ldStVx x => exact Laws.RoundTrip.ldStVx x
  | addI x => exact Laws.RoundTrip.addI x
  | ldF x => exact Laws.RoundTrip.ldF x
  | ldB x => exact Laws.RoundTrip.ldB x
  | storeRegs x => exact Laws.RoundTrip.storeRegs x
  | loadRegs x => exact Laws.RoundTrip.loadRegs x
  | nop w => exact Laws.RoundTrip.nop w

/-- R50, R70: decoding the two bytes of a word, whatever bytes follow. -/
theorem decodeBytes_highByte_lowByte (w : Word) (rest : List Byte) :
    decodeBytes ([highByte w, lowByte w] ++ rest) = .ok (decode w, rest) := by
  show Except.ok (decode (wordOfBytes (highByte w) (lowByte w)), rest) = _
  rw [Machine.wordOfBytes_highByte_lowByte]

/-- Settles O45: the two bytes make the word again, and the word decodes to its instruction. -/
theorem decodeInvertsEncode : Obligations.DecodeInvertsEncode := by
  intro i rest h
  rw [encodeBytes, decodeBytes_highByte_lowByte, decode_encode h]

/-! ### The unmapped words (R79) -/

/-- R79 (a) to (d) in the digits of the word. -/
theorem unmapped_iff {w : Word} : unmapped w = true ↔
    ((topNibble w).val = 0x0 ∧ (fieldN w).val ≠ 0x0 ∧ (fieldN w).val ≠ 0xE) ∨
    ((topNibble w).val = 0x8 ∧ (0x8 ≤ (fieldN w).val ∧ (fieldN w).val ≤ 0xD ∨ (fieldN w).val = 0xF)) ∨
    ((topNibble w).val = 0xE ∧ (fieldN w).val ≠ 0x1 ∧ (fieldN w).val ≠ 0xE) ∨
    ((topNibble w).val = 0xF ∧
      (fieldKK w).toNat ∉ [0x07, 0x0A, 0x15, 0x18, 0x1E, 0x29, 0x33, 0x55, 0x65]) := by
  simp only [unmapped, ← topNibble_val, ← fieldN_val, ← fieldKK_toNat]
  simp
  omega

/-! ### Encode after decode -/

section
variable {w : Word} {t n : Nibble} {kk : Byte}

/-- A word with the top nibble `t` and the low nibble `n`, put together from its fields. -/
theorem packDigits_fields (ht : (topNibble w).val = t.val) (hn : (fieldN w).val = n.val) :
    packDigits t (fieldX w) (fieldY w) n = w := by
  rw [← Fin.ext ht, ← Fin.ext hn, ← eq_packDigits]

theorem packXK_fields (ht : (topNibble w).val = t.val) (hk : (fieldKK w).toNat = kk.toNat) :
    packXK t (fieldX w) kk = w := by
  rw [← Fin.ext ht, ← BitVec.eq_of_toNat_eq hk, ← eq_packXK]

theorem packA_fields (ht : (topNibble w).val = t.val) : packA t (fieldNNN w) = w := by
  rw [← Fin.ext ht, ← eq_packA]

theorem packZ_fields (ht : (topNibble w).val = 0) (hn : (fieldN w).val = n.val) : packZ (fieldIgn w) n = w := by
  rw [← Fin.ext hn, ← eq_packZ (Fin.ext ht)]

end

/-- `w` is the word of the well-formed instruction `i`; `isWordOf_decode` ties it to the decoder. -/
def IsWordOf (w : Word) (i : Instr) : Prop := i.wellFormed = true ∧ encode i = w

section
variable {w : Word}

theorem isWordOf_decode0 (ht : (topNibble w).val = 0x0) : IsWordOf w (decode0 w) := by
  unfold decode0
  split
  case h_3 h0 hE => exact ⟨unmapped_iff.2 (.inl ⟨ht, h0, hE⟩), rfl⟩
  all_goals exact ⟨rfl, packZ_fields ht ‹_›⟩

theorem isWordOf_decode8 (ht : (topNibble w).val = 0x8) : IsWordOf w (decode8 w) := by
  unfold decode8
  split
  case h_10 =>
    have hlow : 0x8 ≤ (fieldN w).val ∧ (fieldN w).val ≤ 0xD ∨ (fieldN w).val = 0xF := by
      simp only [imp_false] at *
      omega
    exact ⟨unmapped_iff.2 (.inr (.inl ⟨ht, hlow⟩)), rfl⟩
  all_goals exact ⟨rfl, packDigits_fields ht ‹_›⟩

theorem isWordOf_decodeE (ht : (topNibble w).val = 0xE) : IsWordOf w (decodeE w) := by
  unfold decodeE
  split
  case h_3 h1 hE => exact ⟨unmapped_iff.2 (.inr (.inr (.inl ⟨ht, h1, hE⟩))), rfl⟩
  all_goals exact ⟨rfl, packDigits_fields ht ‹_›⟩

theorem isWordOf_decodeF (ht : (topNibble w).val = 0xF) : IsWordOf w (decodeF w) := by
  unfold decodeF
  split
  case h_10 =>
    have hkey : (fieldKK w).toNat ∉ [0x07, 0x0A, 0x15, 0x18, 0x1E, 0x29, 0x33, 0x55, 0x65] := by
      simp only [imp_false] at *
      simp [*]
    exact ⟨unmapped_iff.2 (.inr (.inr (.inr ⟨ht, hkey⟩))), rfl⟩
  all_goals exact ⟨rfl, packXK_fields ht ‹_›⟩

end

/-- Every word is the word of what it decodes to. -/
theorem isWordOf_decode (w : Word) : IsWordOf w (decode w) := by
  unfold decode
  split
  case h_1 ht => exact isWordOf_decode0 ht
  case h_9 ht => exact isWordOf_decode8 ht
  case h_15 ht => exact isWordOf_decodeE ht
  case h_16 =>
    have htop : (topNibble w).val = 0xF := by
      simp only [imp_false] at *
      omega
    exact isWordOf_decodeF htop
  case h_2 ht | h_3 ht | h_11 ht | h_12 ht => exact ⟨rfl, packA_fields ht⟩
  case h_4 ht | h_5 ht | h_7 ht | h_8 ht | h_13 ht => exact ⟨rfl, packXK_fields ht rfl⟩
  case h_6 ht | h_10 ht | h_14 ht => exact ⟨rfl, packDigits_fields ht rfl⟩

theorem encode_inj {i j : Instr} (hi : i.wellFormed = true) (hj : j.wellFormed = true) :
    encode i = encode j ↔ i = j := by
  refine ⟨fun h => ?_, congrArg encode⟩
  rw [← decode_encode hi, h, decode_encode hj]

/-! ### The no-op words (R79) -/

/-- The unmapped words are those that decode to the no-op. -/
theorem decode_eq_nop_iff {w : Word} : decode w = .nop w ↔ unmapped w = true := by
  refine ⟨fun h => ?_, Laws.RoundTrip.nop w⟩
  have hwf : (decode w).wellFormed = true := (isWordOf_decode w).1
  rwa [h] at hwf

/-- Settles O49: the no-op words are the unmapped words, whose four classes are (a) to (d). -/
theorem unmappedWordsAreExactlyTheNops : Obligations.UnmappedWordsAreExactlyTheNops := by
  intro w
  rw [decode_eq_nop_iff, unmapped_iff, topNibble_val, fieldN_val, fieldKK_toNat]

/-- Settles O50, by evaluating the decoder and the encoder on the words of R84. -/
theorem encodingExamplesDecode : Obligations.EncodingExamplesDecode := by
  unfold Obligations.EncodingExamplesDecode
  decide

end Sys2Proof
end

section
/-! The mask and match table against the dispatch (R76, R77), and the words that are not canonical (R78). -/

namespace Sys2Proof

/-! ### What a row's mask tells of a word -/

section
variable {w p : Word}

/-- A first-level row hits by the top nibble. -/
theorem mask_top_eq_iff (hp : p.toNat % 4096 = 0) : w &&& 0xF000#16 = p ↔ w.toNat / 4096 = p.toNat / 4096 := by
  rw [mask_top, ← BitVec.toNat_inj, packDigits_toNat, topNibble_val]
  omega

/-- A row with a low-nibble key hits by the top and the low nibble. -/
theorem mask_top_low_eq_iff (hp : p.toNat / 16 % 256 = 0) :
    w &&& 0xF00F#16 = p ↔ w.toNat / 4096 = p.toNat / 4096 ∧ w.toNat % 16 = p.toNat % 16 := by
  rw [mask_top_low, ← BitVec.toNat_inj, packDigits_toNat, topNibble_val, fieldN_val]
  omega

/-- A row with a low-byte key hits by the top nibble and the low byte. -/
theorem mask_top_byte_eq_iff (hp : p.toNat / 256 % 16 = 0) :
    w &&& 0xF0FF#16 = p ↔ w.toNat / 4096 = p.toNat / 4096 ∧ w.toNat % 256 = p.toNat % 256 := by
  rw [mask_top_byte, ← BitVec.toNat_inj, packXK_toNat, topNibble_val, fieldKK_toNat]
  omega

end

/-! ### The two forms of decoding -/

/-- R76, R79: a word that no row hits is unmapped. -/
theorem unmapped_of_no_hit {w : Word} (h : ∀ r ∈ opcodeRows, r.hits w = false) : unmapped w = true := by
  simp (disch := decide) only [opcodeRows, rowsFlow, rowsAlu, rowsMiddle, rowsF, List.forall_mem_append,
    List.forall_mem_cons, OpcodeRow.hits, beq_eq_false_iff_ne, ne_eq, BitVec.ofNat_eq_ofNat, mask_top_eq_iff,
    mask_top_low_eq_iff, mask_top_byte_eq_iff, BitVec.reduceToNat, Nat.reduceDiv, Nat.reduceMod] at h
  simp only [unmapped_iff, topNibble_val, fieldN_val, fieldKK_toNat]
  obtain ⟨⟨⟨⟨h0, h0E, h1, h2, h3, h4, h5, h6, h7, -⟩, h8⟩, h9, hA, hB, hC, hD, hEE, hE1, -⟩, hF⟩ := h
  have hslot : w.toNat / 4096 = 0x0 ∨ w.toNat / 4096 = 0x8 ∨ w.toNat / 4096 = 0xE ∨ w.toNat / 4096 = 0xF := by
    have := w.isLt
    clear h0 h0E h8 hEE hE1 hF
    omega
  rcases hslot with ht | ht | ht | ht
  · exact .inl ⟨ht, fun hn => h0 ⟨ht, hn⟩, fun hn => h0E ⟨ht, hn⟩⟩
  · simp [ht] at h8 ⊢
    omega
  · exact .inr (.inr (.inl ⟨ht, fun hn => hE1 ⟨ht, hn⟩, fun hn => hEE ⟨ht, hn⟩⟩))
  · exact .inr (.inr (.inr ⟨ht, by simpa [ht] using hF⟩))

/-- A row of the table gives what the dispatch gives, on every word it hits. -/
def OpcodeRow.Agrees (r : OpcodeRow) : Prop := ∀ w : Word, r.hits w = true → decode w = r.build w

theorem OpcodeRow.Agrees.of_mask {r : OpcodeRow} (h : ∀ {w : Word}, w &&& r.mask = r.pattern → decode w = r.build w) :
    r.Agrees := fun _ hw => h (eq_of_beq hw)

theorem rowsFlow_agree : ∀ r ∈ rowsFlow, r.Agrees := by
  simp only [rowsFlow, List.forall_mem_cons]
  exact ⟨.of_mask decode_cls, .of_mask decode_ret, .of_mask decode_jp, .of_mask decode_call, .of_mask decode_seByte,
    .of_mask decode_sneByte, .of_mask decode_seReg, .of_mask decode_ldByte, .of_mask decode_addByte, nofun⟩

theorem rowsAlu_agree : ∀ r ∈ rowsAlu, r.Agrees := by
  simp only [rowsAlu, List.forall_mem_cons]
  exact ⟨.of_mask decode_ldReg, .of_mask decode_orReg, .of_mask decode_andReg, .of_mask decode_xorReg,
    .of_mask decode_addReg, .of_mask decode_subReg, .of_mask decode_shr, .of_mask decode_subnReg, .of_mask decode_shl,
    nofun⟩

theorem rowsMiddle_agree : ∀ r ∈ rowsMiddle, r.Agrees := by
  simp only [rowsMiddle, List.forall_mem_cons]
  exact ⟨.of_mask decode_sneReg, .of_mask decode_ldI, .of_mask decode_jpV0, .of_mask decode_rnd, .of_mask decode_drw,
    .of_mask decode_skp, .of_mask decode_sknp, nofun⟩

theorem rowsF_agree : ∀ r ∈ rowsF, r.Agrees := by
  simp only [rowsF, List.forall_mem_cons]
  exact ⟨.of_mask decode_ldVxDt, .of_mask decode_ldVxK, .of_mask decode_ldDtVx, .of_mask decode_ldStVx,
    .of_mask decode_addI, .of_mask decode_ldF, .of_mask decode_ldB, .of_mask decode_storeRegs, .of_mask decode_loadRegs,
    nofun⟩

theorem opcodeRows_agree : ∀ r ∈ opcodeRows, r.Agrees := by
  simp only [opcodeRows, List.forall_mem_append]
  exact ⟨⟨⟨rowsFlow_agree, rowsAlu_agree⟩, rowsMiddle_agree⟩, rowsF_agree⟩

/-- Settles O47: a row found by the table agrees with the dispatch; a word without a row is unmapped, so a no-op. -/
theorem dispatchAgreesWithTheMaskTable : Obligations.DispatchAgreesWithTheMaskTable := by
  intro w
  unfold decodeByRows
  split
  case h_1 r hfind =>
    have hhit : r.hits w = true := by simpa using List.find?_some hfind
    exact opcodeRows_agree r (List.mem_of_find?_eq_some hfind) w hhit
  case h_2 hnone =>
    have hmiss : ∀ r ∈ opcodeRows, r.hits w = false := by simpa using hnone
    exact decode_eq_nop_iff.2 (unmapped_of_no_hit hmiss)

/-- Two rows that hit one word have patterns that agree on the bits both masks keep. -/
theorem OpcodeRow.pattern_and_mask_eq_of_hits {r q : OpcodeRow} {w : Word} (hr : r.hits w = true)
    (hq : q.hits w = true) : r.pattern &&& q.mask = q.pattern &&& r.mask := by
  rw [← eq_of_beq hr, ← eq_of_beq hq, BitVec.and_assoc, BitVec.and_assoc, BitVec.and_comm r.mask]

/-- R76: any two patterns differ on a bit that both masks keep. -/
theorem opcodeRows_patterns_differ :
    opcodeRows.Pairwise fun r q => r.pattern &&& q.mask ≠ q.pattern &&& r.mask := by
  decide

/-- Settles O48: a word that two rows hit would make their patterns agree on the bits of both masks. -/
theorem opcodeRowsAreDisjoint : Obligations.OpcodeRowsAreDisjoint :=
  ⟨rfl, fun _ => opcodeRows_patterns_differ.imp fun hne ⟨hr, hq⟩ => hne (OpcodeRow.pattern_and_mask_eq_of_hits hr hq)⟩

/-! ### The words that are not canonical (R78) -/

/-- R78: a handler reads no ignored field. -/
theorem exec_canonical (i : Instr) (s : Machine.State) : Machine.exec i.canonical s = Machine.exec i s := by
  cases i <;> rfl

theorem Instr.canonical_wellFormed {i : Instr} (h : i.wellFormed = true) : i.canonical.wellFormed = true := by
  cases i with
  | nop w => exact h
  | _ => rfl

/-- R78: the words with an ignored field at another digit than the pattern shows, in the digits of the word. -/
def IsAliasWord (w : Word) : Prop :=
  ((topNibble w).val = 0x0 ∧ ((fieldN w).val = 0x0 ∨ (fieldN w).val = 0xE) ∧ (fieldIgn w).toNat ≠ 0x0E) ∨
  (((topNibble w).val = 0x5 ∨ (topNibble w).val = 0x9) ∧ (fieldN w).val ≠ 0x0) ∨
  ((topNibble w).val = 0xE ∧ (fieldN w).val = 0xE ∧ (fieldY w).val ≠ 0x9) ∨
  ((topNibble w).val = 0xE ∧ (fieldN w).val = 0x1 ∧ (fieldY w).val ≠ 0xA)

theorem not_isAliasWord_of_unmapped {w : Word} (h : unmapped w = true) : ¬ IsAliasWord w := by
  rw [unmapped_iff] at h
  unfold IsAliasWord
  omega

/-- A well-formed instruction is not canonical exactly where its word is in one of the classes of R78. -/
theorem canonical_ne_iff_isAliasWord {i : Instr} (h : i.wellFormed = true) :
    i.canonical ≠ i ↔ IsAliasWord (encode i) := by
  cases i with
  | nop w => exact iff_of_false (fun hne => hne rfl) (not_isAliasWord_of_unmapped h)
  | cls ign | ret ign =>
    simp [Instr.canonical, IsAliasWord, encode]
    bv_omega
  | seReg x y ign | sneReg x y ign =>
    simp [Instr.canonical, IsAliasWord, encode]
    exact ne_comm
  | skp x ign | sknp x ign =>
    simp [Instr.canonical, IsAliasWord, encode]
    exact (eq_comm.trans Fin.ext_iff).not
  | _ => simp [Instr.canonical, IsAliasWord, encode]

/-- Settles O51: the canonical word decodes to the canonical instruction, which runs alike; and it is another word
exactly where an ignored field is at another digit. -/
theorem aliasWordsActAsCanonical : Obligations.AliasWordsActAsCanonical := by
  refine ⟨fun w s => ?_, fun w => ?_⟩
  · rw [decode_encode (Instr.canonical_wellFormed (isWordOf_decode w).1), exec_canonical]
  · obtain ⟨i, hi, rfl⟩ : ∃ i, IsWordOf w i := ⟨_, isWordOf_decode w⟩
    rw [decode_encode hi, (encode_inj (Instr.canonical_wellFormed hi) hi).ne, canonical_ne_iff_isAliasWord hi,
      IsAliasWord, topNibble_val, fieldN_val, fieldIgn_toNat, fieldY_val]

end Sys2Proof
end

section
/-! The cycle (R100 to R108 of spec/40_cycle_and_dispatch.md): the halted and the completed step, and what a handler leaves
of the timers, the screen and memory. -/

namespace Sys2Proof.Machine

open Sys2Proof.Stmt

/-! ### The branches of the step -/

/-- R101, R234: a halted core steps to itself. -/
theorem step_halted {s : State} (h : s.latch.halted = true) : step s = .next s :=
  if_pos h

/-- R102 to R105: a running core that can fetch runs the fetched word and ends the cycle. -/
theorem step_fetched {s t : State} (hs : s.Running) (hpc : s.pc.toNat ≤ 4094)
    (h : exec (decode s.fetchWord) s = .next t) : step s = .next (t.finish s.fetchWord) := by
  have hfetch : ¬ lastFetch < s.pc.toNat := Nat.not_lt.mpr hpc
  simp [step, cycle, hs, hfetch, runWord, h]

/-- Settles O32: the two bytes of the hypothesis are the fetched word, so the step is the end of that word's cycle. -/
theorem stepRunsTheDecodedInstruction : Obligations.StepRunsTheDecodedInstruction := by
  intro s t w i hs hpc hw hdec _ h
  have hfetch : s.fetchWord = w := BitVec.eq_of_toNat_eq (s.fetchWord_toNat.trans hw.symm)
  have hstep : step s = .next (t.finish w) := by
    rw [← hfetch]
    exact step_fetched hs hpc (by rwa [hfetch, hdec])
  refine ⟨fun ht => ?_, fun ht => ?_⟩
  · rw [hstep, State.finish_halted w ht]
  · rw [hstep, State.finish_running w ht]
    rfl

/-- Settles O8: an unmapped word decodes to the no-op, whose cycle is the advance, the word and the timers. -/
theorem nopOnlyAdvances : Obligations.NopOnlyAdvances := by
  refine ⟨fun w s => rfl, fun s hs hpc hw => ?_⟩
  have hexec : exec (decode s.fetchWord) s = .next s.advance := by
    rw [decode_eq_nop_iff.mpr hw]
    rfl
  refine ⟨countDown s.delayTimer, countDown s.soundTimer, ?_, countDown_toNat _, countDown_toNat _⟩
  rw [step_fetched hs hpc hexec, State.finish_running (t := s.advance) _ hs]
  rfl

/-! ### The halted core -/

/-- A machine whose step leaves a state as it is stays in it for any number of steps. -/
theorem run_of_step_self (M : Host.Core) {s : M.State} (h : M.step s = .next s) (n : Nat) : M.run n s = .next s := by
  induction n with
  | zero => rfl
  | succ n ih => simp only [Host.Core.run, h, ih]

/-- R235: no move of the host but reset touches the latch of a halted core; a requested cycle does nothing. -/
theorem State.move_halted_latch {font : Config.Font} {s t : State} {m : HostMove} (h : s.latch.halted = true)
    (hm : m ≠ .reset) (hmove : s.move font m = .next t) : t.latch = s.latch := by
  cases m with
  | reset => exact absurd rfl hm
  | loadRom rom =>
    cases hmove
    exact s.loadRom_latch rom
  | cycle keys rnd =>
    have hstep : s.move font (.cycle keys rnd) = .next (s.present keys rnd) := step_halted h
    rw [hstep] at hmove
    cases hmove
    exact s.present_latch keys rnd

/-- Settles O33: a halted core steps to itself, the host's other moves leave its latch, and reset clears it. -/
theorem haltedCoreNeverMoves : Obligations.HaltedCoreNeverMoves := by
  refine ⟨fun n s h => run_of_step_self Sys2Proof.core (step_halted h) n,
    fun font s t m h hm hmove => State.move_halted_latch h hm hmove, fun font s t hmove => ?_⟩
  cases hmove
  exact congrArg FaultLatch.halted (s.applyReset_latch font)

/-! ### What a block load leaves alone, of the timers and the screen (R176) -/

@[simp] theorem State.loadRegsFrom_delayTimer (base k : Nat) (s : State) :
    (State.loadRegsFrom base k s).delayTimer = s.delayTimer := by rw [State.loadRegsFrom_eq]
@[simp] theorem State.loadRegsFrom_soundTimer (base k : Nat) (s : State) :
    (State.loadRegsFrom base k s).soundTimer = s.soundTimer := by rw [State.loadRegsFrom_eq]
@[simp] theorem State.loadRegsFrom_video (base k : Nat) (s : State) :
    (State.loadRegsFrom base k s).video = s.video := by rw [State.loadRegsFrom_eq]

/-! ### The timers (R105, R215, R216) -/

/-- R29: only Fx15 writes the delay timer. -/
theorem exec_delayTimer_frame {i : Instr} {s t : State} (hi : ∀ x, i ≠ .ldDtVx x) (h : exec i s = .next t) :
    t.delayTimer = s.delayTimer := by
  cases exec_leaves h with
  | ldDtVx x => exact absurd rfl (hi x)
  | _ => simp

/-- R30: only Fx18 writes the sound timer. -/
theorem exec_soundTimer_frame {i : Instr} {s t : State} (hi : ∀ x, i ≠ .ldStVx x) (h : exec i s = .next t) :
    t.soundTimer = s.soundTimer := by
  cases exec_leaves h with
  | ldStVx x => exact absurd rfl (hi x)
  | _ => simp

/-- What a handler leaves in the delay timer. -/
theorem exec_delayTimer {i : Instr} {s t : State} (h : exec i s = .next t) : t.delayTimer = delayBefore i s := by
  unfold delayBefore
  split
  case h_1 x =>
    cases h
    rfl
  case h_2 hi => exact exec_delayTimer_frame hi h

/-- What a handler leaves in the sound timer. -/
theorem exec_soundTimer {i : Instr} {s t : State} (h : exec i s = .next t) : t.soundTimer = soundBefore i s := by
  unfold soundBefore
  split
  case h_1 x =>
    cases h
    rfl
  case h_2 hi => exact exec_soundTimer_frame hi h

/-- Settles O31, by the four shapes of a step: the halted one and the two rejected ones keep the timers, the completed one
counts down from what its handler left. -/
theorem everyCompletedCycleStepsTheTimers : Obligations.EveryCompletedCycleStepsTheTimers := by
  intro s t h
  rcases step_cases s with ⟨hs, e⟩ | ⟨-, -, e⟩ | ⟨-, -, c, info, -, e⟩ | ⟨hs, -, -, u, hu, hlatch, -, e⟩ <;>
    rw [e] at h <;> cases h
  case inl => exact ⟨fun hrun => absurd (hs.symm.trans hrun) (by decide), fun _ => ⟨rfl, rfl⟩⟩
  case inr.inl | inr.inr.inl => exact ⟨nofun, fun _ => ⟨rfl, rfl⟩⟩
  case inr.inr.inr =>
    refine ⟨fun _ _ => ?_, fun hhalted => ?_⟩
    · rw [← exec_delayTimer hu, ← exec_soundTimer hu]
      exact ⟨countDown_toNat _, countDown_toNat _⟩
    · have hrun : u.latch.halted = false := by rw [hlatch, hs]
      exact absurd (hhalted.symm.trans hrun) (by decide)

/-! ### The screen and memory (R107) -/

/-- Settles O37: of the shapes `exec` can leave, only those of 00E0 and Dxyn have another `video`. -/
theorem onlyDisplayInstructionsWriteVideo : Obligations.OnlyDisplayInstructionsWriteVideo := by
  intro i s t hcls hdrw h
  cases exec_leaves h with
  | cls ign => exact absurd rfl (hcls ign)
  | drw x y n => exact absurd rfl (hdrw x y n)
  | _ => simp

/-- R107: no handler but Fx33 and Fx55 has another memory among the shapes it can leave. -/
theorem exec_memory_frame {i : Instr} {s t : State} (hldB : ∀ x, i ≠ .ldB x) (hstore : ∀ x, i ≠ .storeRegs x)
    (h : exec i s = .next t) : t.memory = s.memory := by
  cases exec_leaves h with
  | ldB x => exact absurd rfl (hldB x)
  | storeRegs x => exact absurd rfl (hstore x)
  | _ => simp

/-- Settles O38: the same memory is the same at every address. -/
theorem onlyTheTwoStoresWriteMemory : Obligations.OnlyTheTwoStoresWriteMemory := by
  intro i s t hldB hstore h
  have hmem : t.memory = s.memory := exec_memory_frame hldB hstore h
  exact ⟨hmem, fun a => by rw [hmem]⟩

end Sys2Proof.Machine
end

section
/-! Control transfer (spec/41_flow.md): the completed branches of the return stack, the skips and the jumps. -/

namespace Sys2Proof.Machine

/-! ### The return stack (R121, R123) -/

/-- A 12-bit address as the jump and the call put it in `pc`. -/
theorem zextAddr_eq_ofNat (nnn : BitVec 12) : zextAddr nnn = BitVec.ofNat 16 nnn.toNat :=
  (BitVec.ofNat_toNat 16 nnn).symm

/-- R121: a return with a frame on the stack. -/
theorem exec_ret_of_pos {s : State} (ign : Byte) (h : 0 < s.sp.val) :
    exec (.ret ign) s = .next { s with sp := ⟨s.sp.val - 1, by omega⟩, pc := s.stack[s.sp.val - 1] } := by
  have hpop := State.pop?_of_pos (s := s.advance) h
  simp only [exec, execRet, hpop]
  rfl

/-- R123: a call with a free slot on the stack. -/
theorem exec_call_of_lt {s : State} (nnn : BitVec 12) (h : s.sp.val < 16) :
    exec (.call nnn) s = .next { s with
      stack := s.stack.set s.sp.val (s.pc + 2)
      sp := ⟨s.sp.val + 1, by omega⟩
      pc := BitVec.ofNat 16 nnn.toNat } := by
  have hpush := State.push?_of_lt (s := s.advance) s.advance.pc h
  simp only [exec, execCall, hpush, zextAddr_eq_ofNat]
  rfl

/-- Settles O1: a pop with a frame on the stack; without one, the fatal condition of the table. -/
theorem retPopsThePc : Obligations.RetPopsThePc :=
  ⟨fun _ => decode_ret, fun ign s => ⟨exec_ret_of_pos ign, fun h => exec_raises (by simp [fatalCondition, h])⟩⟩

/-- Settles O3: a push with a free slot; without one, the fatal condition of the table. -/
theorem callPushesAndJumps : Obligations.CallPushesAndJumps :=
  ⟨fun _ => decode_call, fun nnn s => ⟨exec_call_of_lt nnn, fun h => exec_raises (by simp [fatalCondition, h])⟩⟩

/-- Settles O4: the slot below the `sp` that the call left holds the address it pushed. -/
theorem callThenRetComesBack : Obligations.CallThenRetComesBack := by
  intro nnn ign s u hs t hcall hstack hsp
  rw [exec_call_of_lt nnn hs] at hcall
  cases hcall
  have hval : u.sp.val = s.sp.val + 1 := congrArg Fin.val hsp
  have hpos : 0 < u.sp.val := by omega
  have hslot : u.stack[u.sp.val - 1] = s.pc + 2 := by simp [hstack, hval]
  have hdown : (⟨u.sp.val - 1, by omega⟩ : Fin 17) = s.sp := Fin.ext (by simp [hval])
  rw [exec_ret_of_pos ign hpos, hslot, hdown]

/-! ### The skips (R120, R124 to R127) -/

/-- R103, R120: the advance and a skip together move `pc` by 4 or by 2, and change nothing else. -/
theorem State.skipIf_advance (s : State) (c : Bool) :
    s.advance.skipIf c = { s with pc := s.pc + if c then 4 else 2 } := by
  cases c with
  | false => rfl
  | true =>
    calc s.advance.skipIf true = { s with pc := s.pc + 2 + 2 } := rfl
      _ = { s with pc := s.pc + 4 } := by
        rw [BitVec.add_assoc]
        rfl

/-- A skip when two bytes are equal. -/
theorem State.skipIf_advance_beq (s : State) (a b : Byte) :
    s.advance.skipIf (a == b) = { s with pc := s.pc + if a = b then 4 else 2 } := by
  rw [State.skipIf_advance]
  simp

/-- A skip when two bytes differ. -/
theorem State.skipIf_advance_bne (s : State) (a b : Byte) :
    s.advance.skipIf (a != b) = { s with pc := s.pc + if a = b then 2 else 4 } := by
  rw [State.skipIf_advance]
  by_cases h : a = b <;> simp [h]

/-- Settles O5: the two handlers are the two skips, on `V[x]` and the byte. -/
theorem byteSkips : Obligations.ByteSkips :=
  ⟨fun _ => decode_seByte, fun _ => decode_sneByte, fun x kk s =>
    ⟨congrArg Host.Outcome.next (s.skipIf_advance_beq (s.reg x) kk),
      congrArg Host.Outcome.next (s.skipIf_advance_bne (s.reg x) kk)⟩⟩

/-- Settles O6: the two handlers are the two skips, on `V[x]` and `V[y]`; the low nibble does not occur in them. -/
theorem registerSkips : Obligations.RegisterSkips :=
  ⟨fun _ => decode_seReg, fun _ => decode_sneReg, fun x y _ s =>
    ⟨congrArg Host.Outcome.next (s.skipIf_advance_beq (s.reg x) (s.reg y)),
      congrArg Host.Outcome.next (s.skipIf_advance_bne (s.reg x) (s.reg y))⟩⟩

/-! ### The jumps (R122, R128) -/

/-- R128: the target of Bnnn is the exact sum, which 16 bits hold. -/
theorem jpV0_target_toNat (b : Byte) (nnn : BitVec 12) :
    (zextByte b + zextAddr nnn).toNat = b.toNat + nnn.toNat := by
  have := b.isLt
  have := nnn.isLt
  rw [BitVec.toNat_add, zextByte_toNat, zextAddr_toNat]
  omega

/-- Settles O7: the target is the sum of V0 and the address, in 16 bits. -/
theorem jpV0AddsV0 : Obligations.JpV0AddsV0 :=
  ⟨fun _ => decode_jpV0, fun nnn s =>
    ⟨zextByte (s.reg 0) + zextAddr nnn, rfl, jpV0_target_toNat _ _, jpV0_target_le _ _⟩⟩

/-- Settles O2: the advance and the jump together write `pc` alone. -/
theorem jpSetsPc : Obligations.JpSetsPc := by
  refine ⟨fun _ => decode_jp, fun nnn s => ?_⟩
  rw [← zextAddr_eq_ofNat]
  rfl

end Sys2Proof.Machine
end

section
/-! Register load, arithmetic, logic, shift and random (spec/42_alu.md): the two shapes a handler of this family leaves,
the number each one writes, and the cases of VF as an operand. -/

namespace Sys2Proof.Machine

open Sys2Proof.Stmt

/-! ### The two shapes: one register, and a register after the flag -/

/-- R141 to R146: an instruction that writes one register writes no other. -/
theorem writesReg_of_setReg {i : Instr} {s : State} {x : Reg} {b : Byte} {n : Nat}
    (h : exec i s = .next (s.advance.setReg x b)) (hb : b.toNat = n) : WritesReg i s x n := by
  refine ⟨s.v.set x b, h, ?_, fun r hr => set_reg_other s.v b hr⟩
  rw [set_reg_same, hb]

/-- R153: a flag writer whose destination is not VF leaves both the result and the flag. -/
theorem writesRegAndFlag_of_setReg {i : Instr} {s : State} {x : Reg} {f b : Byte} {n m : Nat} (hx : x ≠ vf)
    (h : exec i s = .next ((s.advance.setFlag f).setReg x b)) (hb : b.toNat = n) (hf : f.toNat = m) :
    WritesRegAndFlag i s x n m := by
  refine ⟨(s.v.set vf f).set x b, h, ?_, ?_, fun r hr hrvf => ?_⟩
  · rw [set_reg_same, hb]
  · rw [set_reg_other _ b hx.symm, set_reg_same, hf]
  · rw [set_reg_other _ b hr, set_reg_other _ f hrvf]

/-- R153: the last of two writes to VF stays. -/
theorem State.setFlag_setReg_vf (s : State) (f b : Byte) : (s.setFlag f).setReg vf b = s.setReg vf b := by
  simp [State.setFlag, State.setReg]

/-- R153: a flag writer whose destination is VF leaves the result there, and no flag. -/
theorem writesReg_vf_of_setReg {i : Instr} {s : State} {f b : Byte} {n : Nat}
    (h : exec i s = .next ((s.advance.setFlag f).setReg vf b)) (hb : b.toNat = n) : WritesReg i s vf n := by
  rw [State.setFlag_setReg_vf] at h
  exact writesReg_of_setReg h hb

/-! ### Reading a register after the flag (R153) -/

@[simp] theorem State.reg_setFlag_vf (s : State) (f : Byte) : (s.setFlag f).reg vf = f := s.reg_setReg_same vf f

theorem State.reg_setFlag_of_ne (s : State) {r : Reg} (f : Byte) (h : r ≠ vf) : (s.setFlag f).reg r = s.reg r :=
  s.reg_setReg_other f h

/-! ### Bytes and flags as numbers (R140) -/

/-- R148, R150: a difference wraps modulo 256. -/
theorem byte_sub_toNat (a b : Byte) : (a - b).toNat = (256 + a.toNat - b.toNat) % 256 := by
  have := b.isLt
  rw [BitVec.toNat_sub]
  omega

/-- R149: a right shift halves. -/
theorem byte_shiftRight_toNat (a : Byte) : (a >>> 1).toNat = a.toNat / 2 := by
  rw [BitVec.toNat_ushiftRight, Nat.shiftRight_eq_div_pow]

/-- R151: a left shift doubles modulo 256. -/
theorem byte_shiftLeft_toNat (a : Byte) : (a <<< 1).toNat = a.toNat * 2 % 256 := by
  rw [BitVec.toNat_shiftLeft, Nat.shiftLeft_eq]

/-- The `[c]` of R153 is the flag byte's value. -/
theorem flagByte_toNat_eq_bit (c : Bool) : (flagByte c).toNat = bit c := flagByte_toNat c

/-! ### Loads, immediate addition and logic (R141 to R146): no flag -/

/-- Settles O9: both loads write one register, with the byte or with the value of `V[y]`. -/
theorem loadsWriteOneRegister : Obligations.LoadsWriteOneRegister :=
  ⟨fun _ => decode_ldByte, fun _ => decode_ldReg, fun _ y kk s =>
    ⟨writesReg_of_setReg (b := kk) rfl rfl, writesReg_of_setReg (b := s.reg y) rfl rfl⟩⟩

/-- Settles O10: the register written holds the sum of two bytes, which wraps modulo 256. -/
theorem addByteWrapsAndSetsNoFlag : Obligations.AddByteWrapsAndSetsNoFlag :=
  ⟨fun _ => decode_addByte, fun x kk s =>
    writesReg_of_setReg rfl (BitVec.toNat_add (s.reg x) kk)⟩

/-- Settles O11: each handler writes one register, with a bitwise operation on the operands. -/
theorem logicIsBitwiseAndSetsNoFlag : Obligations.LogicIsBitwiseAndSetsNoFlag := by
  refine ⟨fun _ => decode_orReg, fun _ => decode_andReg, fun _ => decode_xorReg, fun x y s => ?_⟩
  refine ⟨s.reg x &&& s.reg y, s.reg x ||| s.reg y, s.reg x ^^^ s.reg y,
    writesReg_of_setReg rfl rfl, writesReg_of_setReg rfl rfl, writesReg_of_setReg rfl rfl, fun i => ?_⟩
  exact ⟨BitVec.getLsbD_or, BitVec.getLsbD_and, BitVec.getLsbD_xor⟩

/-! ### Addition with carry (R147) -/

/-- Settles O12: the sum is of the old registers, so only which of the two writes to VF stays depends on `x`. -/
theorem addRegSumAndCarry : Obligations.AddRegSumAndCarry := by
  refine ⟨fun _ => decode_addReg, fun x y s => ?_⟩
  have hsum : (s.reg x + s.reg y).toNat = ((s.reg x).toNat + (s.reg y).toNat) % 256 := BitVec.toNat_add _ _
  refine ⟨fun hx => ?_, ?_⟩
  · exact writesRegAndFlag_of_setReg hx rfl hsum (flagByte_toNat_eq_bit _)
  · rintro rfl
    exact writesReg_vf_of_setReg rfl hsum

/-! ### Subtraction (R148, R150): the flag first, then a difference of what the registers hold -/

/-- What `V[r]` counts for in a subtraction that reads it after the flag `f` was written (R153). -/
def operandAfterFlag (s : State) (f : Nat) (r : Reg) : Nat := if r = vf then f else (s.reg r).toNat

/-- The number of a register read after the flag. -/
theorem reg_setFlag_toNat (s : State) (f : Byte) (r : Reg) :
    ((s.advance.setFlag f).reg r).toNat = operandAfterFlag s f.toNat r := by
  unfold operandAfterFlag
  split
  case isTrue h => rw [h, State.reg_setFlag_vf]
  case isFalse h => rw [State.reg_setFlag_of_ne _ f h, State.reg_advance]

/-- A difference of two registers read after the flag. -/
theorem differenceAfterFlag_toNat (s : State) (f : Byte) (p q : Reg) :
    ((s.advance.setFlag f).reg p - (s.advance.setFlag f).reg q).toNat =
      (256 + operandAfterFlag s f.toNat p - operandAfterFlag s f.toNat q) % 256 := by
  rw [byte_sub_toNat, reg_setFlag_toNat, reg_setFlag_toNat]

theorem greaterFlag_toNat_eq_bit (a b : Byte) : (greaterFlag a b).toNat = bit (b.toNat < a.toNat) :=
  flagByte_toNat_eq_bit _

/-- R153: a subtraction of `V[q]` from `V[p]` after its flag, whose number is `m`: the result, and the flag unless the
result overwrites it. -/
theorem writes_difference {i : Instr} {s : State} {x p q : Reg} {f : Byte} {m : Nat}
    (h : exec i s = .next ((s.advance.setFlag f).setReg x
      ((s.advance.setFlag f).reg p - (s.advance.setFlag f).reg q))) (hf : f.toNat = m) :
    (x ≠ vf →
      WritesRegAndFlag i s x ((256 + operandAfterFlag s m p - operandAfterFlag s m q) % 256) m) ∧
    (x = vf → WritesReg i s vf ((256 + operandAfterFlag s m p - operandAfterFlag s m q) % 256)) := by
  subst hf
  have hdiff := differenceAfterFlag_toNat s f p q
  refine ⟨fun hx => writesRegAndFlag_of_setReg hx h hdiff rfl, ?_⟩
  rintro rfl
  exact writesReg_vf_of_setReg h hdiff

/-- Settles O13: the four columns are the difference after the flag, with each operand VF or not. -/
theorem subRegDifferenceAndFlag : Obligations.SubRegDifferenceAndFlag := by
  refine ⟨fun _ => decode_subReg, fun x y s => ?_⟩
  obtain ⟨hother, hvf⟩ := writes_difference (i := .subReg x y) (p := x) (q := y) rfl
    (greaterFlag_toNat_eq_bit (s.reg x) (s.reg y))
  refine ⟨fun hx hy => ?_, fun hx hy => ?_, fun hx hy => ?_, fun hx hy => ?_⟩
  · simpa [operandAfterFlag, hx, hy] using hother hx
  · simpa [operandAfterFlag, hx, hy] using hvf hx
  · simpa [operandAfterFlag, hx, hy] using hother hx
  · simpa [operandAfterFlag, hx, hy] using hvf hx

/-- Settles O15: as 8xy5, with the operands of the difference and of the flag exchanged. -/
theorem subnRegDifferenceAndFlag : Obligations.SubnRegDifferenceAndFlag := by
  refine ⟨fun _ => decode_subnReg, fun x y s => ?_⟩
  obtain ⟨hother, hvf⟩ := writes_difference (i := .subnReg x y) (p := y) (q := x) rfl
    (greaterFlag_toNat_eq_bit (s.reg y) (s.reg x))
  refine ⟨fun hx hy => ?_, fun hx hy => ?_, fun hx hy => ?_, fun hx hy => ?_⟩
  · simpa [operandAfterFlag, hx, hy] using hother hx
  · simpa [operandAfterFlag, hx, hy] using hvf hx
  · simpa [operandAfterFlag, hx, hy] using hother hx
  · simpa [operandAfterFlag, hx, hy] using hvf hx

/-! ### The shifts (R149, R151): the flag first, then a shift of what `V[x]` holds -/

/-- Settles O14: the shift of `V[x]`, or of VF after its bit 0 was written there, which leaves nothing. -/
theorem shrHalvesAndKeepsTheLowBit : Obligations.ShrHalvesAndKeepsTheLowBit := by
  refine ⟨fun _ => decode_shr, fun x y s => ⟨fun hx => ?_, ?_⟩⟩
  · refine writesRegAndFlag_of_setReg hx rfl ?_ (lowBitFlag_toNat (s.reg x))
    rw [State.reg_setFlag_of_ne _ _ hx, State.reg_advance, byte_shiftRight_toNat]
  · rintro rfl
    refine writesReg_vf_of_setReg rfl ?_
    rw [State.reg_setFlag_vf, byte_shiftRight_toNat, lowBitFlag_toNat]
    omega

/-- Settles O16: the shift of `V[x]`, or of VF after its bit 7 was written there, which leaves twice that bit. -/
theorem shlDoublesAndKeepsTheHighBit : Obligations.ShlDoublesAndKeepsTheHighBit := by
  refine ⟨fun _ => decode_shl, fun x y s => ⟨fun hx => ?_, ?_⟩⟩
  · refine writesRegAndFlag_of_setReg hx rfl ?_ (highBitFlag_toNat (s.reg x))
    rw [State.reg_setFlag_of_ne _ _ hx, State.reg_advance, byte_shiftLeft_toNat]
  · rintro rfl
    have := (s.reg vf).isLt
    refine writesReg_vf_of_setReg rfl ?_
    rw [State.reg_setFlag_vf, byte_shiftLeft_toNat, highBitFlag_toNat]
    split <;> omega

/-! ### The random draw (R152) -/

/-- The first lined-up draw is the next one. -/
theorem State.nextDraw_of_cons {s : State} {e : Byte} {es : List Byte} (h : s.draws = e :: es) : s.nextDraw = e := by
  simp [State.nextDraw, h]

/-- R152: a masked byte has no bit outside the mask. -/
theorem masked_and_not_mask (d kk : Byte) : (d &&& kk) &&& ~~~kk = 0 := by
  simp [BitVec.and_assoc]

/-- Settles O17: the register written holds the next draw under the mask, and consuming a draw drops it. -/
theorem rndMasksOneDraw : Obligations.RndMasksOneDraw := by
  refine ⟨fun _ => decode_rnd, fun x kk s => ⟨s.nextDraw, s.v.set x (s.nextDraw &&& kk), ?_, ?_⟩⟩
  · rw [List.drop_one]
    rfl
  · rw [set_reg_same]
    exact ⟨rfl, masked_and_not_mask _ _, fun r hr => set_reg_other _ _ hr, fun e es h => State.nextDraw_of_cons h⟩

@[simp] theorem State.loadRegsFrom_draws (base k : Nat) (s : State) :
    (State.loadRegsFrom base k s).draws = s.draws := by rw [State.loadRegsFrom_eq]
@[simp] theorem State.loadRegsFrom_drawCount (base k : Nat) (s : State) :
    (State.loadRegsFrom base k s).drawCount = s.drawCount := by rw [State.loadRegsFrom_eq]

/-- Settles O44: of the shapes `exec` can leave, only that of Cxkk has other draws. -/
theorem onlyRndConsumesADraw : Obligations.OnlyRndConsumesADraw := by
  intro i s t hrnd h
  cases exec_leaves h with
  | rnd x kk => exact absurd rfl (hrnd x kk)
  | _ => simp

end Sys2Proof.Machine
end

section
/-! The index register and memory (spec/43_index_memory.md): the completed branch of each checked access, and the bytes
or registers it leaves. -/

namespace Sys2Proof.Machine

/-! ### The writers of `index` (R171 to R173) -/

/-- R172, D14: the sum of `index` and a byte wraps at 16 bits. -/
theorem index_add_zextByte_toNat (w : Word) (b : Byte) :
    (w + zextByte b).toNat = (w.toNat + b.toNat) % 65536 := by
  rw [BitVec.toNat_add, zextByte_toNat]

/-- Settles O18: each handler is the advance and one write to `index`, of the zero-extended address, the wrapped sum or
the glyph address. -/
theorem indexWriters : Obligations.IndexWriters :=
  ⟨fun _ => decode_ldI, fun _ => decode_addI, fun _ => decode_ldF, fun nnn x s =>
    ⟨zextAddr nnn, s.index + zextByte (s.reg x), glyphAddr (s.reg x), rfl, zextAddr_toNat nnn, rfl,
      index_add_zextByte_toNat _ _, rfl, glyphAddr_toNat _⟩⟩

/-! ### The range check of a block (R56, R175, R176) -/

/-- A block whose last byte is inside memory passes the range check. -/
theorem State.block_fits {s : State} {x : Reg} (hx : s.index.toNat + x.val ≤ 4095) :
    s.base + blockCount x ≤ 4096 := by
  unfold State.base blockCount
  omega

/-! ### Decimal digits (R174) -/

theorem bcdDigits_length (b : Byte) : (bcdDigits b).length = 3 := rfl

/-- R174: the digits as numbers, hundreds first. -/
theorem bcdDigits_toNat (b : Byte) :
    (bcdDigits b).map BitVec.toNat = [b.toNat / 100, b.toNat / 10 % 10, b.toNat % 10] := by
  have := b.isLt
  simp (disch := omega) [bcdDigits, Nat.mod_eq_of_lt]

/-- R174: with three bytes inside memory, Fx33 writes the digits at `index`. -/
theorem exec_ldB_of_le {x : Reg} {s : State} (h : s.index.toNat + 2 ≤ 4095) :
    exec (.ldB x) s = .next { s with
      pc := s.pc + 2, memory := Memory.writeBytes s.memory s.index.toNat (bcdDigits (s.reg x)) } :=
  State.checked_ok _ (.inr (Nat.succ_le_succ h))

/-- R174: the byte at `index + i` after Fx33 is the `i`-th digit. -/
theorem Memory.read_writeBytes_bcdDigits {m : Memory} (hm : Memory.wf m = true) {base : Nat} (hbase : base + 2 ≤ 4095)
    (b : Byte) (i : Fin 3) :
    (Memory.read (Memory.writeBytes m base (bcdDigits b)) (base + i.val)).toNat =
      [b.toNat / 100, b.toNat / 10 % 10, b.toNat % 10][i.val] := by
  have hi : i.val < (bcdDigits b).length := i.isLt
  have hmap : i.val < ((bcdDigits b).map BitVec.toNat).length := i.isLt
  calc (Memory.read (Memory.writeBytes m base (bcdDigits b)) (base + i.val)).toNat
      = (bcdDigits b)[i.val].toNat :=
        congrArg BitVec.toNat (Memory.read_writeBytes_inside hm base (bcdDigits b) (Nat.succ_le_succ hbase) hi)
    _ = ((bcdDigits b).map BitVec.toNat)[i.val] := (List.getElem_map BitVec.toNat).symm
    _ = [b.toNat / 100, b.toNat / 10 % 10, b.toNat % 10][i.val] := List.getElem_of_eq (bcdDigits_toNat b) hmap

/-- Settles O19: the range check passes and the three digits are read back one by one, or it fails. -/
theorem bcdStoresThreeDigits : Obligations.BcdStoresThreeDigits := by
  refine ⟨fun _ => decode_ldB, fun x s hm => ⟨fun h => ?_, fun h => exec_raises (by simp [fatalCondition, h])⟩⟩
  have hdigit := Memory.read_writeBytes_bcdDigits hm h (s.reg x)
  refine ⟨_, exec_ldB_of_le h, hdigit 0, hdigit 1, hdigit 2, fun a ha => ?_⟩
  exact Memory.read_writeBytes_outside _ _ _ (by rw [bcdDigits_length]; omega)

/-! ### The block store (R175) -/

/-- R175: with the block inside memory, Fx55 writes it at `index`. -/
theorem exec_storeRegs_of_le {x : Reg} {s : State} (hx : s.index.toNat + x.val ≤ 4095) :
    exec (.storeRegs x) s = .next { s with
      pc := s.pc + 2, memory := Memory.writeBytes s.memory s.index.toNat (s.regBlock x) } :=
  State.checked_ok _ (.inr (State.block_fits hx))

/-- Settles O20: the range check passes, and the block is read back inside and the old memory outside; or it fails. -/
theorem storeRegsStoresTheBlock : Obligations.StoreRegsStoresTheBlock := by
  refine ⟨fun _ => decode_storeRegs, fun x s hm =>
    ⟨fun hx => ?_, fun h => exec_raises (by simp [fatalCondition, h])⟩⟩
  have hexec := exec_storeRegs_of_le hx
  refine ⟨_, hexec, fun r hr => exec_storeRegs_read hm hx hexec hr, fun a ha => ?_⟩
  exact Memory.read_writeBytes_outside _ _ _ (by rw [State.regBlock_length]; omega)

/-! ### The block load (R176) -/

/-- The registers of the block load of Fx65: those up to `x` come from memory, the others are unchanged. -/
theorem State.reg_loadBlock (s : State) (x r : Reg) :
    (State.loadRegsFrom s.base (blockCount x) s.advance).reg r =
      if r ≤ x then Memory.read s.memory (s.index.toNat + r.val) else s.reg r := by
  have hiff : r.val < blockCount x ↔ r ≤ x := Nat.lt_succ_iff
  have hcount : blockCount x ≤ 16 := x.isLt
  rw [State.reg_loadRegsFrom _ _ hcount, State.reg_advance, State.advance_memory]
  simp only [hiff, State.base]

/-- R176: with the block inside memory, Fx65 loads it from `index`, and changes registers and `pc` only. -/
theorem exec_loadRegs_of_le {x : Reg} {s : State} (hx : s.index.toNat + x.val ≤ 4095) :
    exec (.loadRegs x) s = .next { s with
      pc := s.pc + 2, v := (State.loadRegsFrom s.base (blockCount x) s.advance).v } := by
  have hok : exec (.loadRegs x) s = .next (State.loadRegsFrom s.base (blockCount x) s.advance) :=
    State.checked_ok _ (.inr (State.block_fits hx))
  rw [hok, State.loadRegsFrom_eq]
  rfl

/-- Settles O21: the range check passes, and each register is the byte of the block or the old one; or it fails. -/
theorem loadRegsLoadsTheBlock : Obligations.LoadRegsLoadsTheBlock := by
  refine ⟨fun _ => decode_loadRegs, fun x s =>
    ⟨fun hx => ?_, fun h => exec_raises (by simp [fatalCondition, h])⟩⟩
  refine ⟨_, exec_loadRegs_of_le hx, fun r hr => ?_, fun r hr => ?_⟩
  · exact (s.reg_loadBlock x r).trans (if_pos hr)
  · exact (s.reg_loadBlock x r).trans (if_neg (Fin.not_le.mpr hr))

/-! ### The round trip (R176) -/

/-- Settles O22: the load reads the block where the store's read rule says it is. -/
theorem storeThenLoadGivesTheRegistersBack : Obligations.StoreThenLoadGivesTheRegistersBack := by
  intro x s u hm hx t hstore hmem hindex
  have hxu : u.index.toNat + x.val ≤ 4095 := by rwa [hindex]
  refine ⟨_, exec_loadRegs_of_le hxu, fun r => (u.reg_loadBlock x r).trans ?_⟩
  by_cases hr : r ≤ x
  · rw [if_pos hr, if_pos hr, hmem, hindex, exec_storeRegs_read hm hx hstore hr]
  · rw [if_neg hr, if_neg hr]

end Sys2Proof.Machine
end

section
/-! The display (spec/44_display.md): the canvas a draw leaves, its pixels and its collision in the words of the sprite,
and the completed branch of Dxyn. -/

namespace Sys2Proof.Machine

open Sys2Proof.Stmt

/-- Settles O24: the handler is the advance and the blank screen. -/
theorem clsClearsEveryPixel : Obligations.ClsClearsEveryPixel :=
  ⟨fun _ => decode_cls, fun _ _ => ⟨blankVideo, rfl, pixel_blank⟩⟩

/-! ### One draw (R192 to R195) -/

/-- The sprite bit of the row loop is the sprite of R193. -/
theorem spriteBit_eq_spriteOn (s : State) (xpos ypos n px py : Nat) :
    spriteBit s.memory s.base xpos ypos n px py = spriteOn s xpos ypos n px py := by
  have hbounds : (ypos ≤ py ∧ py < ypos + n) ∧ (xpos ≤ px ∧ px < xpos + 8) ↔
      xpos ≤ px ∧ px < xpos + 8 ∧ ypos ≤ py ∧ py < ypos + n := by omega
  unfold spriteBit colBit spriteOn
  rw [← Bool.and_assoc, ← Bool.decide_and, decide_eq_decide.mpr hbounds]
  rfl

/-- The sprite Dxyn draws in state `s`: whether it has a 1 on the pixel (`px`, `py`). -/
def State.spriteAt (s : State) (x y : Reg) (n : Nibble) (px py : Nat) : Bool :=
  spriteOn s ((s.reg x).toNat % 64) ((s.reg y).toNat % 32) n.val px py

/-- The screen after the rows of Dxyn in state `s`, and whether a collision was seen. -/
def State.drawn (s : State) (x y : Reg) (n : Nibble) : Canvas :=
  drawRows s.memory s.base ((s.reg x).toNat % 64) ((s.reg y).toNat % 32) n.val { video := s.video, hit := false }

theorem State.drawn_video (s : State) (x y : Reg) (n : Nibble) (px : Fin 64) (py : Fin 32) :
    pixel (s.drawn x y n).video px py = (pixel s.video px py ^^ s.spriteAt x y n px.val py.val) := by
  rw [State.drawn, drawRows_video, spriteBit_eq_spriteOn, State.spriteAt]

theorem State.drawn_hit_iff (s : State) (x y : Reg) (n : Nibble) :
    (s.drawn x y n).hit = true ↔
      ∃ (px : Fin 64) (py : Fin 32), s.spriteAt x y n px.val py.val = true ∧ pixel s.video px py = true := by
  rw [State.drawn, drawRows_hit]
  simp [spriteBit_eq_spriteOn, State.spriteAt]

/-- R192: with the sprite inside memory, Dxyn leaves the drawn screen and the collision in VF. -/
theorem exec_drw_of_fits {s : State} {n : Nibble} (x y : Reg) (h : n.val = 0 ∨ s.index.toNat + n.val ≤ 4096) :
    exec (.drw x y n) s = .next { s with
      pc := s.pc + 2
      video := (s.drawn x y n).video
      v := s.v.set vf (flagByte (s.drawn x y n).hit) } :=
  State.checked_ok _ h

/-- Settles O25: the range check passes and the drawn canvas is read pixel by pixel, or it fails. -/
theorem drwComposesPixelwise : Obligations.DrwComposesPixelwise := by
  refine ⟨fun _ => decode_drw, fun x y n s =>
    ⟨fun h => ?_, fun hn h => exec_raises (by simp [fatalCondition, hn, h])⟩⟩
  have hhit := s.drawn_hit_iff x y n
  refine ⟨_, _, exec_drw_of_fits x y h, s.drawn_video x y n, fun hmeet => ?_, fun hmiss => ?_,
    fun r hr => set_reg_other _ _ hr⟩
  · rw [set_reg_same, hhit.mpr hmeet]
    rfl
  · rw [set_reg_same, Bool.eq_false_of_not_eq_true (mt hhit.mp hmiss)]
    rfl

/-! ### Two draws -/

section
variable {s u : State} {x y : Reg} {n : Nibble}

/-- The same sprite on the screen of the first draw flips every pixel back. -/
theorem State.drawn_drawn_video (hsprite : u.spriteAt x y n = s.spriteAt x y n)
    (hvideo : u.video = (s.drawn x y n).video) : (u.drawn x y n).video = s.video :=
  video_ext fun px py => by
    rw [State.drawn_video, hvideo, State.drawn_video, hsprite, Bool.xor_assoc, Bool.xor_self, Bool.xor_false]

/-- The same sprite on the screen of the first draw meets its own pixels, where that screen was clear before. -/
theorem State.drawn_drawn_hit (hsprite : u.spriteAt x y n = s.spriteAt x y n)
    (hvideo : u.video = (s.drawn x y n).video) {px : Fin 64} {py : Fin 32} (hclear : pixel s.video px py = false)
    (hon : s.spriteAt x y n px.val py.val = true) : (u.drawn x y n).hit = true := by
  refine (u.drawn_hit_iff x y n).mpr ⟨px, py, by rw [hsprite, hon], ?_⟩
  rw [hvideo, State.drawn_video, hclear, hon, Bool.false_xor]

end

/-- Settles O26: the second draw has the memory, `index` and registers of the first, so it meets the same sprite. -/
theorem drawingTwiceErases : Obligations.DrawingTwiceErases := by
  intro x y n s h t ht
  rw [exec_drw_of_fits x y h] at ht
  cases ht
  refine ⟨_, exec_drw_of_fits x y h, State.drawn_drawn_video rfl rfl, fun hclear ⟨px, py, hon⟩ => ?_⟩
  exact (set_reg_same _ vf _).trans
    (congrArg flagByte (a₂ := true) (State.drawn_drawn_hit (s := s) rfl rfl (hclear px py) hon))

end Sys2Proof.Machine
end

section
/-! The keypad and the timers (spec/45_keypad_timers.md): the completed branch of each key skip, the two branches of the
key wait, and the cycle of an instruction whose timer access the countdown of R105 follows. -/

namespace Sys2Proof.Machine

/-! ### The key skips (R211, R212) -/

/-- R211: a key number inside the keypad is tested, and the skip is taken when the key is down. -/
theorem exec_skp_of_le {x : Reg} {s : State} (ign : Nibble) (h : (s.reg x).toNat ≤ 15) :
    exec (.skp x ign) s = .next { s with
      pc := s.pc + if s.keypad.getLsbD (s.reg x).toNat = true then 4 else 2 } :=
  (if_neg (Nat.not_lt.mpr h)).trans (congrArg Host.Outcome.next (s.skipIf_advance _))

/-- R212: a key number inside the keypad is tested, and the skip is taken when the key is up. -/
theorem exec_sknp_of_le {x : Reg} {s : State} (ign : Nibble) (h : (s.reg x).toNat ≤ 15) :
    exec (.sknp x ign) s = .next { s with
      pc := s.pc + if s.keypad.getLsbD (s.reg x).toNat = true then 2 else 4 } := by
  have hexec : exec (.sknp x ign) s = .next (s.advance.skipIf (!s.keyDown (s.reg x).toNat)) :=
    if_neg (Nat.not_lt.mpr h)
  rw [hexec, State.skipIf_advance, State.keyDown]
  cases s.keypad.getLsbD (s.reg x).toNat <;> rfl

/-- Settles O27: with a key number inside the keypad the two skips; above 15, the fatal condition of the table. -/
theorem keySkips : Obligations.KeySkips :=
  ⟨fun _ => decode_skp, fun _ => decode_sknp, fun _ ign _ =>
    ⟨fun h => ⟨exec_skp_of_le ign h, exec_sknp_of_le ign h⟩,
      fun h => ⟨exec_raises (if_pos h), exec_raises (if_pos h)⟩⟩⟩

/-! ### The key wait (R214) -/

/-- R214: a pressed key with no pressed key below it is the one the scan gives. -/
theorem firstKey_eq_some {keys : BitVec 16} {k : Nat} (hk : k < 16) (hdown : keys.getLsbD k = true)
    (hlow : ∀ j < k, keys.getLsbD j = false) : firstKey keys = some k := by
  rw [firstKey, List.find?_range_eq_some]
  exact ⟨hdown, List.mem_range.mpr hk, fun j hj => by simp [hlow j hj]⟩

/-- R214: the wait ends with the number of the key that the scan gives. -/
theorem exec_ldVxK_of_some {s : State} {k : Nat} (x : Reg) (h : firstKey s.keypad = some k) :
    exec (.ldVxK x) s = .next (s.advance.setReg x (BitVec.ofNat 8 k)) := by
  simp only [exec, execLdVxK, h]

/-- R214: without a pressed key `pc` is moved on and back again. -/
theorem exec_ldVxK_of_none {s : State} (x : Reg) (h : firstKey s.keypad = none) : exec (.ldVxK x) s = .next s := by
  simp only [exec, execLdVxK, h, State.advance_back]

/-- Settles O28: the scan finds the key that has none pressed below it, whose number a byte holds, or finds none. -/
theorem keyWaitTakesTheLowestKey : Obligations.KeyWaitTakesTheLowestKey := by
  refine ⟨fun _ => decode_ldVxK, fun x s => ⟨fun k hdown hlow => ?_, fun hup => ?_⟩⟩
  · have hscan : firstKey s.keypad = some k.val :=
      firstKey_eq_some k.isLt hdown fun j hj => hlow ⟨j, hj.trans k.isLt⟩ hj
    have hbyte : (BitVec.ofNat 8 k.val).toNat = k.val :=
      (BitVec.toNat_ofNat _ _).trans (Nat.mod_eq_of_lt (k.isLt.trans (by decide)))
    exact writesReg_of_setReg (exec_ldVxK_of_some x hscan) hbyte
  · exact exec_ldVxK_of_none x (firstKey_none.mpr fun k hk => hup ⟨k, hk⟩)

/-! ### The timers (R213, R215, R216) -/

/-- R102 to R105: the completed cycle of a running core is what the handler left, with the word in `opcode` and each
timer counted down after the handler. -/
theorem step_completed {i : Instr} {s t : State} (hs : s.Running) (hpc : s.pc.toNat ≤ 4094)
    (hdec : decode s.fetchWord = i) (h : exec i s = .next t) (ht : t.latch = s.latch) :
    step s = .next { t with
      opcode := s.fetchWord
      delayTimer := countDown t.delayTimer
      soundTimer := countDown t.soundTimer } := by
  subst hdec
  rw [step_fetched hs hpc h, State.finish_running _ (ht.symm ▸ hs)]

/-- Settles O29: the handler copies the delay timer into `V[x]`, and the cycle counts the timers down after it. -/
theorem timerReadPrecedesTheDecrement : Obligations.TimerReadPrecedesTheDecrement := by
  refine ⟨fun _ => decode_ldVxDt, fun x s => writesReg_of_setReg (b := s.delayTimer) rfl rfl,
    fun s x hs hpc hdec => ?_⟩
  have hexec : exec (.ldVxDt x) s = .next (s.advance.setReg x s.delayTimer) := rfl
  exact ⟨countDown s.delayTimer, countDown s.soundTimer, s.v.set x s.delayTimer, countDown_toNat _, countDown_toNat _,
    set_reg_same s.v x _, fun r hr => set_reg_other s.v _ hr, step_completed hs hpc hdec hexec rfl⟩

/-- R215: the handler writes the delay timer. -/
theorem exec_ldDtVx (x : Reg) (s : State) :
    exec (.ldDtVx x) s = .next { s with pc := s.pc + 2, delayTimer := s.reg x } := rfl

/-- R216: the handler writes the sound timer. -/
theorem exec_ldStVx (x : Reg) (s : State) :
    exec (.ldStVx x) s = .next { s with pc := s.pc + 2, soundTimer := s.reg x } := rfl

/-- Settles O30: each handler writes its timer, and the cycle counts down the value just written. -/
theorem timerWriteIsSteppedInItsOwnCycle : Obligations.TimerWriteIsSteppedInItsOwnCycle := by
  refine ⟨fun _ => decode_ldDtVx, fun _ => decode_ldStVx, fun x s => ⟨exec_ldDtVx x s, exec_ldStVx x s⟩,
    fun s x hs hpc => ⟨fun hdec => ?_, fun hdec => ?_⟩⟩
  · exact ⟨countDown (s.reg x), countDown s.soundTimer, countDown_toNat _, countDown_toNat _,
      step_completed hs hpc hdec (exec_ldDtVx x s) rfl⟩
  · exact ⟨countDown s.delayTimer, countDown (s.reg x), countDown_toNat _, countDown_toNat _,
      step_completed hs hpc hdec (exec_ldStVx x s) rfl⟩

end Sys2Proof.Machine
end

section
/-! The fatal conditions (R231 to R233 and R238 of spec/60_exceptions.md): the rejected fetch, the rejected instruction,
and the next state that every cycle has. -/

namespace Sys2Proof.Machine

/-! ### The rejected cycle (R233) -/

/-- R231, code 1: a running core whose `pc` is above the last fetch address rejects the cycle before any instruction. -/
theorem step_raises_of_fetchOutOfRange {s : State} (hs : s.Running) (hpc : 4094 < s.pc.toNat) :
    step s = .next (s.raise .fetchOutOfRange s.pc) := by
  have hfetch : lastFetch < s.pc.toNat := hpc
  simp [step, cycle, hs, hfetch, reject]

/-- R231, codes 2 to 5: where the table gives a condition for the fetched instruction, the cycle is rejected with it, and
the end of the cycle leaves the raised state as it is. -/
theorem step_raises_of_fatalCondition {s : State} {c : FaultCause} {info : Word} (hs : s.Running)
    (hpc : s.pc.toNat ≤ 4094) (h : fatalCondition (decode s.fetchWord) s = some (c, info)) :
    step s = .next (s.raise c info) := by
  rw [step_fetched hs hpc (exec_raises h), State.finish_halted _ rfl]

/-- Settles O34, by the four shapes of a step: the halted one does not start from a running core, the completed one does
not end halted, and the two rejected ones end in the raised state. -/
theorem rejectedCycleCommitsNothing : Obligations.RejectedCycleCommitsNothing := by
  intro s t hs h ht
  rcases step_cases s with ⟨hh, -⟩ | ⟨-, hpc, e⟩ | ⟨-, hpc, c, info, hc, e⟩ | ⟨-, -, -, u, -, hlatch, -, e⟩
  case inl => exact absurd (hh.symm.trans hs) (by decide)
  all_goals
    rw [e] at h
    cases h
  case inr.inl => exact ⟨.fetchOutOfRange, s.pc, by decide, rfl, .inl ⟨hpc, rfl, rfl⟩⟩
  case inr.inr.inl => exact ⟨c, info, fatalCondition_cause hc, rfl, .inr ⟨hpc, hc⟩⟩
  case inr.inr.inr =>
    have hrun : u.latch.halted = false := by rw [hlatch, hs]
    exact absurd (ht.symm.trans hrun) (by decide)

/-- Settles O35: above the last fetch address the fetch is rejected; below it the fetched instruction is rejected with the
table's condition, and completes, its latch untouched, when the table has none. -/
theorem fatalConditionsAreExactlyTheTable : Obligations.FatalConditionsAreExactlyTheTable := by
  refine ⟨by decide, fun s hs => ⟨step_raises_of_fetchOutOfRange hs, fun hpc =>
    ⟨fun c info => step_raises_of_fatalCondition hs hpc, fun hnone => ?_⟩⟩⟩
  obtain ⟨t, hexec, hlatch, -⟩ := exec_completes hnone
  exact ⟨_, step_completed hs hpc rfl hexec hlatch, hlatch⟩

/-! ### Every state has a next one (R238) -/

/-- Every instruction answers a next state: the raised one of the table or the completed one. -/
theorem exec_answers_next (i : Instr) (s : State) : ∃ t, exec i s = .next t := by
  rcases exec_cases i s with ⟨c, info, -, e⟩ | ⟨-, t, e, -⟩
  · exact ⟨_, e⟩
  · exact ⟨t, e⟩

/-- Every state steps: a halted core to itself, a rejected fetch to its raised state, and a fetched instruction to what it
answers, ended. -/
theorem step_answers_next (s : State) : ∃ t, step s = .next t := by
  cases hs : s.latch.halted with
  | true => exact ⟨s, step_halted hs⟩
  | false =>
    rcases Nat.lt_or_ge 4094 s.pc.toNat with hpc | hpc
    · exact ⟨_, step_raises_of_fetchOutOfRange hs hpc⟩
    · obtain ⟨t, hexec⟩ := exec_answers_next (decode s.fetchWord) s
      exact ⟨_, step_fetched hs hpc hexec⟩

/-- Settles O36: the step and every instruction answer a next state. -/
theorem everyStateHasAStep : Obligations.EveryStateHasAStep :=
  ⟨step_answers_next, exec_answers_next⟩

end Sys2Proof.Machine
end

section
/-! What the host does between cycles (R260 to R267 of spec/70_reset_and_hazards.md): the bytes a ROM load leaves, and the
invariant under every move. -/

namespace Sys2Proof.Machine

/-! ### ROM load (R264) -/

/-- R264: a ROM load never runs past memory, so each byte it takes is read back where it was copied to. -/
theorem State.read_loadRom_inside {s : State} (hm : Memory.wf s.memory = true) {rom : List Byte} {i : Nat}
    (h : i < rom.length) (hi : i < 3584) : Memory.read (s.loadRom rom).memory (0x200 + i) = rom[i] := by
  have htaken : i < (rom.take Config.romMax).length := by
    rw [List.length_take]
    exact Nat.lt_min.mpr ⟨hi, h⟩
  have hfits : Config.romBase + (rom.take Config.romMax).length ≤ 4096 := by
    simp only [List.length_take, Config.romBase, Config.romMax]
    omega
  rw [State.loadRom_memory, Memory.read_writeBytes_inside hm _ _ hfits htaken, List.getElem_take]

/-- R264: a ROM load leaves every byte outside the copied block. -/
theorem State.read_loadRom_outside (s : State) {rom : List Byte} {a : Nat}
    (h : a < 0x200 ∨ 0x200 + min rom.length 3584 ≤ a) :
    Memory.read (s.loadRom rom).memory a = Memory.read s.memory a := by
  refine Memory.read_writeBytes_outside _ _ _ ?_
  rwa [List.length_take, Nat.min_comm]

/-- Settles O53: the load writes memory alone, and is read back inside the copied block and outside it. -/
theorem romLoadCopiesVerbatim : Obligations.RomLoadCopiesVerbatim := fun rom s hm =>
  ⟨(s.loadRom rom).memory, rfl, fun _ => State.read_loadRom_inside hm, fun _ => s.read_loadRom_outside⟩

/-! ### The invariant under the host's moves (R40, R266) -/

/-- R260: reset brings every state to one that meets the invariant. -/
theorem State.applyReset_inv (s : State) (font : Config.Font) : (s.applyReset font).Inv := by
  refine ⟨?_, ⟨fun _ => s.applyReset_latch font, nofun⟩, ?_, fun i => ?_⟩
  · rw [State.applyReset_memory]
    exact Memory.wf_writeBytes rfl _ _
  · rw [State.applyReset_pc]
    decide
  · simp

/-- A ROM load writes memory in canonical form, and nothing else of the invariant. -/
theorem State.Inv.loadRom {s : State} (hs : s.Inv) (rom : List Byte) : (s.loadRom rom).Inv := by
  obtain ⟨hmem, hlatch, hpc⟩ := hs
  exact ⟨Memory.wf_writeBytes hmem _ _, hlatch, hpc⟩

/-- The inputs of a cycle are no part of the invariant (R100). -/
theorem State.Inv.present {s : State} (hs : s.Inv) (keys : BitVec 16) (rnd : Byte) : (s.present keys rnd).Inv := by
  obtain ⟨hmem, hlatch, hpc⟩ := hs
  exact ⟨hmem, hlatch, hpc⟩

/-- Settles O58, move by move: reset makes the invariant, a ROM load keeps it, and a cycle is a step from the presented
state. -/
theorem hostMovesKeepInv : Obligations.HostMovesKeepInv := by
  intro font s t m hs hmove
  cases m with
  | reset =>
    cases hmove
    exact s.applyReset_inv font
  | loadRom rom =>
    cases hmove
    exact hs.loadRom rom
  | cycle keys rnd => exact stepKeepsInv _ _ (hs.present keys rnd) hmove

end Sys2Proof.Machine
end

section
/-! Every word is the encoding of what it decodes to (spec/30_encoding.md). -/

namespace Sys2Proof

/-- Settles O46: every word is the word of the well-formed instruction it decodes to, because `Instr` keeps the bits a
handler ignores (log 8). -/
theorem encodeInvertsDecode : Obligations.EncodeInvertsDecode := by
  intro w
  obtain ⟨hwf, hencode⟩ := isWordOf_decode w
  exact ⟨hencode, hwf⟩

end Sys2Proof
end

section
/-! The word the model places for the next fetch (spec/40_cycle_and_dispatch.md section 1, log 6), and the invariant of the
state after reset (spec/10_state.md section 12). -/

namespace Sys2Proof.Machine

/-! ### The placed word -/

/-- All 16 bits of a word are its table word. -/
theorem tableWord_toNat_self (w : Word) : tableWord 16 w.toNat = w := by
  rw [tableWord, Nat.mod_eq_of_lt w.isLt, BitVec.ofNat_toNat, BitVec.setWidth_eq]

/-- A whole word placed by its number is that word placed. -/
theorem State.withFetchWord_toNat (s : State) (w : Word) : s.withFetchWord 16 w.toNat = s.placeWord w :=
  congrArg (s.placeWord ·) (tableWord_toNat_self w)

/-- The step of a state in which a word has been placed runs that word and ends its cycle (R102 to R105). -/
theorem step_placeWord {s t : State} {w : Word} (hm : Memory.wf s.memory = true)
    (h : exec (decode w) (s.placeWord w) = .next t) : step (s.placeWord w) = .next (t.finish w) := by
  have hfetch : (s.placeWord w).fetchWord = w := State.placeWord_fetchWord w hm
  have hstep := step_fetched (State.placeWord_running w s) (State.placeWord_pc w s) (by rwa [hfetch])
  rwa [hfetch] at hstep

/-- Settles O55: the step runs the placed word, and the end of its cycle writes `opcode` and the timers alone. -/
theorem placedWordRunsNext : Obligations.PlacedWordRunsNext := by
  intro s t w hm h ht
  rw [State.withFetchWord_toNat] at h ⊢
  refine ⟨t.finish w, step_placeWord hm h, ?_⟩
  rw [State.finish_running w ht]
  exact ⟨rfl, rfl, rfl, rfl⟩

/-! ### The state after reset -/

/-- R39: the state after reset is reset applied, so it meets the invariant. -/
theorem State.resetWith_inv (font : Config.Font) : (State.resetWith font).Inv := by
  rw [State.resetWith_eq_applyReset]
  exact State.reset.applyReset_inv font

/-- Settles O56: the fixed reset is the one for the default `FONT`. -/
theorem resetMeetsInv : Obligations.ResetMeetsInv := by
  refine ⟨?_, State.resetWith_inv⟩
  rw [State.reset_eq_resetWith_default]
  exact State.resetWith_inv _

end Sys2Proof.Machine
end
